-- ==== Sys2Proof/Word.lean ====
section
/-! DEFINITION. The word types of the LS-8 core (00_scope.md R7, R8). -/

namespace Sys2Proof

/-- A byte: an 8-bit value read as an unsigned integer 0 to 255 (R7); the width of a register (R20) and of a memory
cell (R32). -/
abbrev Byte := BitVec 8

/-- A program counter value: 9 bits, so that it can hold `0x100`, "one past the last cell" (R24). -/
abbrev PcWord := BitVec 9

/-- A register's index, 0 to 7 (R20). -/
abbrev RegIndex := Fin 8

end Sys2Proof
end

