-- ==== Sys2Proof/Config.lean ====
section
/-! DEFINITION. What is fixed at construction (00_scope.md R6, 10_state.md R34): the opcode assignment `OPC`, and the
reset constants. -/

namespace Sys2Proof

/-- The opcode assignment `OPC`, one byte per instruction (R6, R76). It is a parameter of the machine and not state
(R34): decoding, encoding and the step take one as an argument. -/
structure Opc where
  hlt  : Byte
  ldi  : Byte
  prn  : Byte
  push : Byte
  pop  : Byte
  call : Byte
  ret  : Byte
  add  : Byte
  mul  : Byte
  deriving DecidableEq, Repr

/-- The nine opcode bytes, in the order of R76's table. -/
def Opc.toList (o : Opc) : List Byte :=
  [o.hlt, o.ldi, o.prn, o.push, o.pop, o.call, o.ret, o.add, o.mul]

/-- The constraint on `OPC`: nine pairwise distinct bytes (R6, R76). -/
abbrev Opc.Valid (o : Opc) : Prop := o.toList.Nodup

namespace Config

/-- The default `OPC` (R6, R76, D1). PRESUMED: the numbers are the spec's own recollection of the historical LS-8
encoding and are not in its source (93_implementation_defined.md K1). Unsafe for a claim about concrete bytes;
notes/assumptions/2.md. -/
def opc : Opc where
  hlt  := 0x01
  ldi  := 0x82
  prn  := 0x47
  push := 0x45
  pop  := 0x46
  call := 0x50
  ret  := 0x11
  add  := 0xA0
  mul  := 0xA2

/-- `MEM_SIZE`: the number of memory cells (R6, R32). -/
def memSize : Nat := 256

/-- `MEM_INIT`: what a cell holds after Reset (R6, R33, D7), and so what an address that memory's list does not name
reads as. -/
def memInit : Byte := 0x00

/-- `SP_RESET`: register 7 after Reset (R6, R33). -/
def spReset : Byte := 0xF4

/-- `PC_RESET`: the entry point (R6, R33, R181). -/
def pcReset : PcWord := 0

end Config

end Sys2Proof
end

