-- ==== Sys2Proof/Machine/State.lean ====
section
/-! DEFINITION. The machine's state, as 10_state.md gives it: the tuple `(x[0..7], pc, mem[0..255], status, fault, out)`;
"Nothing else is state". -/

namespace Sys2Proof.Machine

/-- `status`, the run status (R27). -/
inductive Status where
  /-- Constructed, not yet running; the loader may write memory. Entered by Reset, left by Run. -/
  | idle
  /-- The fetch-decode-execute loop is stepping. Entered by Run. -/
  | running
  /-- HLT was fetched, or `absent` was fetched as an opcode. Left by Reset only. -/
  | halted
  /-- A fatal fault occurred. Left by Reset only. -/
  | faulted
  deriving DecidableEq, Repr

/-- The seven faults of R151. They are the machine's own: taking one leads to a next state (R162). -/
inductive FaultCause where
  | unsupportedOpcode
  | outOfBoundsWrite
  | absentOperand
  | invalidRegister
  | stackPointerRange
  | returnAddressRange
  | loadValueRange
  deriving DecidableEq, Repr

/-- The fault record (R28): the cause, the `pc` of the faulting step (0 for a load fault), and the cause's one value. -/
structure FaultRecord where
  cause : FaultCause
  fpc   : PcWord
  info  : Int
  deriving DecidableEq, Repr

/-- Memory's content as data: the cells that hold something else than `Config.memInit`, addresses strictly rising
(`Memory.wf` in Machine/Ops.lean). An address the list does not name reads as `Config.memInit`. -/
abbrev Memory := List Host.Cell

/-- The whole state (10_state.md). -/
structure State where
  /-- The eight general registers; `x[7]` is the stack pointer (R20, R22). -/
  x      : Vector Byte 8
  /-- The program counter (R24). -/
  pc     : PcWord
  /-- The 256 cells (R32). -/
  mem    : Memory
  /-- The run status (R27). -/
  status : Status
  /-- The fault record; none until a fault is raised (R28). -/
  fault  : Option FaultRecord
  /-- The bytes PRN has emitted, oldest first (R29). -/
  out    : List Byte
  deriving DecidableEq, Repr

/-- Faults that stop the MODEL. There is none: every fault the spec gives the machine has an entry that the spec
describes (R162), so raising it is a next state with `status = FAULTED`. -/
inductive Fault where
  deriving DecidableEq, Repr

/-- Refusals. -/
inductive Refusal where
  /-- Raised by an arm of `exec` whose instruction has no meaning yet; no arm raises it in this model. Safe. -/
  | notModelled (mnemonic : String)
  /-- Raised by `step` outside `RUNNING`: "One step of the machine is defined only when `status = RUNNING`" (R90),
  "No step is defined from them" (R98). Safe: no state follows. -/
  | noStep (status : Status)
  /-- Raised by the host's Load and Run outside `IDLE`: "refused: they have no effect and no meaning" (R190). Safe. -/
  | hostRefused (status : Status)
  deriving DecidableEq, Repr

/-- The state after Reset, element by element (R33, R180). -/
def State.reset : State where
  x      := #v[0, 0, 0, 0, 0, 0, 0, Config.spReset]
  pc     := Config.pcReset
  mem    := []
  status := .idle
  fault  := none
  out    := []

end Sys2Proof.Machine
end

