-- ==== Sys2Proof/Machine/Ops.lean ====
section
/-! DEFINITION. The named operations over memory and registers (20_memory.md), and taking a fault as one shared operation
(60_exceptions.md R162). -/

namespace Sys2Proof.Machine

/-! ### Faults -/

/-- A fault about to be raised, with the value its record keeps as `info` (R151). -/
inductive FaultEvent where
  /-- The fetched opcode byte has no handler (R152). -/
  | unsupportedOpcode (op : Byte)
  /-- A write at an address outside 0 to `0xFF` (R153). -/
  | outOfBoundsWrite (addr : Int)
  /-- Operand `k`, which the instruction uses, is absent (R154). -/
  | absentOperand (k : Nat)
  /-- A register operand byte of 8 or more (R155). -/
  | invalidRegister (r : Byte)
  /-- Incrementing the stack pointer `v` would pass `0xFF` (R156). -/
  | stackPointerRange (v : Byte)
  /-- CALL's return address does not fit a cell (R157). -/
  | returnAddressRange (ret : Nat)
  /-- The loaded word with this index is outside 0 to 255 (R158). -/
  | loadValueRange (index : Nat)
  deriving DecidableEq, Repr

/-- Which of the seven faults it is (R151). -/
def FaultEvent.cause : FaultEvent → FaultCause
  | .unsupportedOpcode _ => .unsupportedOpcode
  | .outOfBoundsWrite _ => .outOfBoundsWrite
  | .absentOperand _ => .absentOperand
  | .invalidRegister _ => .invalidRegister
  | .stackPointerRange _ => .stackPointerRange
  | .returnAddressRange _ => .returnAddressRange
  | .loadValueRange _ => .loadValueRange

/-- The record's `info` (R151's column). -/
def FaultEvent.info : FaultEvent → Int
  | .unsupportedOpcode op => op.toNat
  | .outOfBoundsWrite addr => addr
  | .absentOperand k => k
  | .invalidRegister r => r.toNat
  | .stackPointerRange v => v.toNat
  | .returnAddressRange ret => ret
  | .loadValueRange index => index

/-- The numeric code of a cause (R151). -/
def FaultCause.code : FaultCause → Nat
  | .unsupportedOpcode => 1
  | .outOfBoundsWrite => 2
  | .absentOperand => 3
  | .invalidRegister => 4
  | .stackPointerRange => 5
  | .returnAddressRange => 6
  | .loadValueRange => 7

/-- Fault entry (R162), with the `fpc` to record: only `status` and `fault` change. -/
def raiseAt (fpc : PcWord) (e : FaultEvent) (s : State) : State :=
  { s with status := .faulted, fault := some { cause := e.cause, fpc := fpc, info := e.info } }

/-- Fault entry of a step: `fault.fpc <- pc` (R162). There is no return from it (R163). -/
def raise (e : FaultEvent) (s : State) : State := raiseAt s.pc e s

/-- How a handler's run becomes the step's outcome: its last state, or, if it raised, fault entry from the state BEFORE
the step, so that a faulting step changes only `status` and `fault` (R10, R97). -/
def settle (s : State) (r : Except FaultEvent State) : Host.Outcome State Fault Refusal :=
  match r with
  | .ok s' => .next s'
  | .error e => .next (raise e s)

/-! ### Memory -/

namespace Memory

/-- Insert a cell before the first one of a higher address, and nothing for `Config.memInit`. -/
def insertCell (a : Nat) (v : Byte) : Memory → Memory
  | [] => if v = Config.memInit then [] else [(a, v)]
  | c :: m =>
    if v = Config.memInit then c :: m
    else if a < c.1 then (a, v) :: c :: m
    else c :: insertCell a v m

/-- The cell at an address: its listed byte, else `Config.memInit` (R33). -/
def get (a : Nat) : Memory → Byte
  | [] => Config.memInit
  | c :: m => if c.1 = a then c.2 else get a m

/-- Replace the cell at an address, keeping the canonical form. -/
def put (a : Nat) (v : Byte) (m : Memory) : Memory := insertCell a v (m.filter (fun c => c.1 ≠ a))

/-- The canonical form: addresses strictly rising, each inside the 256 cells, and no cell listed with the byte an
unlisted address reads as. -/
abbrev wf (m : Memory) : Prop :=
  m.Pairwise (fun c d => c.1 < d.1) ∧ ∀ c ∈ m, c.1 < Config.memSize ∧ c.2 ≠ Config.memInit

/-- `MemRead(addr, 1)`: the cell, or `absent` (none) at and above `0x100`; never a fault (R9, R41). -/
def read (addr : Nat) (m : Memory) : Option Byte :=
  if addr < Config.memSize then some (get addr m) else none

/-- `MemWrite(addr, 1, v)`: store if in bounds, else raise `OutOfBoundsWrite(addr)` and change no cell (R9, R42). -/
def write (addr : Int) (v : Byte) (m : Memory) : Except FaultEvent Memory :=
  if 0 ≤ addr ∧ addr < Config.memSize then .ok (put addr.toNat v m) else .error (.outOfBoundsWrite addr)

/-- Store cells from an address upwards; those at or above `0x100` have no cell to go to. -/
def storeCells (a : Nat) : List Byte → Memory → Memory
  | [], m => m
  | b :: bs, m => storeCells (a + 1) bs (if a < Config.memSize then put a b m else m)

end Memory

/-! ### Registers, program counter, output -/

/-- The register that PUSH, POP, CALL and RET use as the stack pointer (R22). -/
def sp : RegIndex := 7

namespace State

/-- `x[i]` (R8, R20). No register is hardwired. -/
def reg (i : RegIndex) (s : State) : Byte := s.x[i]

/-- `x[i] <- v` (R8, R20). -/
def setReg (i : RegIndex) (v : Byte) (s : State) : State := { s with x := s.x.set i v }

/-- `pc <- t` (R8). -/
def setPc (t : PcWord) (s : State) : State := { s with pc := t }

/-- `pc <- pc + n` in 9 bits, where `n` is the instruction's width (R25, R26). -/
def advance (n : Nat) (s : State) : State := { s with pc := s.pc + BitVec.ofNat 9 n }

/-- `status <- HALTED` (R92, R93): nothing else changes. -/
def halt (s : State) : State := { s with status := .halted }

/-- `out <- out ++ [v]` (R111). -/
def emit (v : Byte) (s : State) : State := { s with out := s.out ++ [v] }

/-- `MemWrite(addr, 1, v)` on the state. -/
def memWrite (addr : Int) (v : Byte) (s : State) : Except FaultEvent State :=
  match s.mem.write addr v with
  | .ok m => .ok { s with mem := m }
  | .error e => .error e

/-- The cell at a byte address: `MemRead(a, 1)` with `a` in 0 to `0xFF`, which is never `absent` (R58). -/
def cell (a : Byte) (s : State) : Byte := s.mem.get a.toNat

end State

end Sys2Proof.Machine
end

