-- ==== Sys2Proof/Machine/Flags.lean ====
section
/-! DEFINITION. All arithmetic in the machine (44_alu.md R142). There are NO flags: no carry, zero, negative or overflow bit
exists, and ADD and MUL record nothing about the bits above bit 7 (10_state.md R30). What other hardware says by a flag
this one says by a fault, and the tests stand here. -/

namespace Sys2Proof.Machine

/-- ADD's result: the exact sum, its low 8 bits kept (R140). -/
def aluAdd (u v : Byte) : Byte := BitVec.ofNat 8 ((u.toNat + v.toNat) % 256)

/-- MUL's result: the exact product, its low 8 bits kept (R141). -/
def aluMul (u v : Byte) : Byte := BitVec.ofNat 8 ((u.toNat * v.toNat) % 256)

/-- The stack pointer before a push: one less; from 0 the address would be -1, and the write is out of bounds: no wrap
(R120, R142). -/
def spBelow (v : Byte) : Except FaultEvent Byte :=
  if v = 0x00 then .error (.outOfBoundsWrite (-1)) else .ok (v - 1)

/-- The stack pointer after a pop: one more; past `0xFF` it does not fit a register: no wrap (R121, R142). -/
def spAbove (v : Byte) : Except FaultEvent Byte :=
  if v = 0xFF then .error (.stackPointerRange v) else .ok (v + 1)

/-- CALL's return address: `pc + 2`, which must fit a cell (R130, R142). -/
def returnAddress (pc : PcWord) : Except FaultEvent Byte :=
  if pc.toNat + 2 > 0xFF then .error (.returnAddressRange (pc.toNat + 2)) else .ok (BitVec.ofNat 8 (pc.toNat + 2))

/-- `zext_9` of a byte: a transfer's target as a program counter value (R7, R130, R131). -/
def target (b : Byte) : PcWord := b.setWidth 9

end Sys2Proof.Machine
end

