-- ==== Sys2Proof/Machine/Operands.lean ====
section
/-! DEFINITION. The operand forms and their validation, in R96's order (40_run_loop_hlt.md): operand 1 present, operand 2
present, operand a a register, operand b a register. -/

namespace Sys2Proof.Machine

/-- Operand `k` of the instruction at `pc` lies in a cell that exists, else `AbsentOperand(pc, k)` (R96, R154). -/
def operandPresent (k : Nat) (s : State) : Except FaultEvent Unit :=
  match s.mem.read (s.pc.toNat + k) with
  | some _ => .ok ()
  | none => .error (.absentOperand k)

/-- The register a whole operand byte names, else `InvalidRegister` (R77, R96, R155). -/
def regOperand (r : Byte) : Except FaultEvent RegIndex :=
  if h : r.toNat < 8 then .ok ⟨r.toNat, h⟩ else .error (.invalidRegister r)

/-- Format F1: one register operand (R72). -/
def operandsF1 (a : Byte) (s : State) : Except FaultEvent RegIndex := do
  operandPresent 1 s
  regOperand a

/-- Format F2I: a register and an immediate, which is never checked (R73, R78, R96). -/
def operandsF2I (a b : Byte) (s : State) : Except FaultEvent (RegIndex × Byte) := do
  operandPresent 1 s
  operandPresent 2 s
  let ra ← regOperand a
  .ok (ra, b)

/-- Format F2R: two registers, a reported before b (R74, R96). -/
def operandsF2R (a b : Byte) (s : State) : Except FaultEvent (RegIndex × RegIndex) := do
  operandPresent 1 s
  operandPresent 2 s
  let ra ← regOperand a
  let rb ← regOperand b
  .ok (ra, rb)

end Sys2Proof.Machine
end

