-- ==== Sys2Proof/Machine/Alu.lean ====
section
/-! DEFINITION. The meanings of ADD and MUL, two handlers as R143 prefers (44_alu.md). -/

namespace Sys2Proof.Machine

/-- What the two ALU handlers share: both sources are read, then `x[a]` is written, then `pc <- pc + 3` (R140, R141). -/
def aluTwoReg (f : Byte → Byte → Byte) (ra rb : Byte) (s : State) : Except FaultEvent State := do
  let (a, b) ← operandsF2R ra rb s
  .ok ((s.setReg a (f (s.reg a) (s.reg b))).advance 3)

/-- ADD `ra, rb`: `x[a] <- (x[a] + x[b]) mod 256` (R140). -/
def execAdd (ra rb : Byte) (s : State) : Host.Outcome State Fault Refusal := settle s (aluTwoReg aluAdd ra rb s)

/-- MUL `ra, rb`: `x[a] <- (x[a] * x[b]) mod 256` (R141). -/
def execMul (ra rb : Byte) (s : State) : Host.Outcome State Fault Refusal := settle s (aluTwoReg aluMul ra rb s)

end Sys2Proof.Machine
end

