-- ==== Sys2Proof/Machine/Stack.lean ====
section
/-! DEFINITION. The stack operations that PUSH, POP, CALL and RET share, and the meanings of PUSH and POP (42_stack.md). -/

namespace Sys2Proof.Machine

/-- The stack pointer decremented, before a push writes: `OutOfBoundsWrite(-1)` from 0 (R120, R130). -/
def decSp (s : State) : Except FaultEvent State := do
  let p ← spBelow (s.reg sp)
  .ok (s.setReg sp p)

/-- The address the stack pointer holds, as memory's write contract takes it. -/
def stackAddress (s : State) : Nat := (s.reg sp).toNat

/-- `MemWrite(x[7], 1, v)`, where `s` is the state after the decrement (R120, R130). -/
def writeTop (v : Byte) (s : State) : Except FaultEvent State := s.memWrite (stackAddress s) v

/-- PUSH `ra`: the stack pointer is decremented, then `x[a]` is read (so `PUSH R7` pushes the decremented value) and
written (R120). -/
def execPush (ra : Byte) (s : State) : Host.Outcome State Fault Refusal := settle s do
  let a ← operandsF1 ra s
  let s₁ ← decSp s
  let s₂ ← writeTop (s₁.reg a) s₁
  .ok (s₂.advance 2)

/-- POP `ra`: the popped byte goes to `x[a]`, then register 7 is incremented; for `POP R7` it is the popped byte that is
incremented (R121). -/
def execPop (ra : Byte) (s : State) : Host.Outcome State Fault Refusal := settle s do
  let a ← operandsF1 ra s
  let v := s.cell (s.reg sp)
  let p ← spAbove (if a = sp then v else s.reg sp)
  .ok (((s.setReg a v).setReg sp p).advance 2)

end Sys2Proof.Machine
end

