-- ==== Sys2Proof/Machine/Control.lean ====
section
/-! DEFINITION. The meanings of CALL and RET (43_call_ret.md). -/

namespace Sys2Proof.Machine

/-- CALL `ra`: the return address is tested first, then the stack pointer; `x[a]` is read after the decrement, so
`CALL R7` goes to the decremented stack pointer (R130). -/
def execCall (ra : Byte) (s : State) : Host.Outcome State Fault Refusal := settle s do
  let a ← operandsF1 ra s
  let ret ← returnAddress s.pc
  let s₁ ← decSp s
  let s₂ ← writeTop ret s₁
  .ok (s₂.setPc (target (s₂.reg a)))

/-- RET: the popped byte becomes `pc`; no operand is used (R131). -/
def execRet (s : State) : Host.Outcome State Fault Refusal := settle s do
  let t := s.cell (s.reg sp)
  let p ← spAbove (s.reg sp)
  .ok ((s.setReg sp p).setPc (target t))

end Sys2Proof.Machine
end

