-- ==== Sys2Proof/Machine/LoadPrint.lean ====
section
/-! DEFINITION. The meanings of HLT (40_run_loop_hlt.md R93), LDI and PRN (41_ldi_prn.md R110, R111). -/

namespace Sys2Proof.Machine

/-- HLT: `status <- HALTED`; `pc` is not changed, no operand is fetched, no fault can arise (R93). -/
def execHlt (s : State) : Host.Outcome State Fault Refusal := settle s (.ok s.halt)

/-- LDI `ra, imm`: `x[a] <- b; pc <- pc + 3` (R110). -/
def execLdi (ra imm : Byte) (s : State) : Host.Outcome State Fault Refusal := settle s do
  let (a, b) ← operandsF2I ra imm s
  .ok ((s.setReg a b).advance 3)

/-- PRN `ra`: `out <- out ++ [x[a]]; pc <- pc + 2` (R111). -/
def execPrn (ra : Byte) (s : State) : Host.Outcome State Fault Refusal := settle s do
  let a ← operandsF1 ra s
  .ok ((s.emit (s.reg a)).advance 2)

end Sys2Proof.Machine
end

