-- ==== Sys2Proof/Syntax.lean ====
section
/-! DEFINITION. The nine instructions (00_scope.md R2), with their operand bytes. -/

namespace Sys2Proof

/-- An instruction with its operand bytes as they stand in memory (30_encoding.md R70 to R74). A register operand is
the WHOLE byte (R77): one of 8 or more is a term of this type, `Instr.WellFormed` says no to it, and its meaning
raises `InvalidRegister` (R96). -/
inductive Instr where
  /-- HLT, format F0 (R71, R93). -/
  | hlt
  /-- LDI `ra, imm`, format F2I (R73, R110). -/
  | ldi (ra imm : Byte)
  /-- PRN `ra`, format F1 (R72, R111). -/
  | prn (ra : Byte)
  /-- PUSH `ra`, format F1 (R72, R120). -/
  | push (ra : Byte)
  /-- POP `ra`, format F1 (R72, R121). -/
  | pop (ra : Byte)
  /-- CALL `ra`, format F1 (R72, R130). -/
  | call (ra : Byte)
  /-- RET, format F0 (R71, R131). -/
  | ret
  /-- ADD `ra, rb`, format F2R (R74, R140). -/
  | add (ra rb : Byte)
  /-- MUL `ra, rb`, format F2R (R74, R141). -/
  | mul (ra rb : Byte)
  deriving DecidableEq, Repr

namespace Instr

/-- The operand bytes in the order of their cells: operand a, then operand b (R70). -/
def operands : Instr → List Byte
  | hlt => []
  | ldi ra imm => [ra, imm]
  | prn ra => [ra]
  | push ra => [ra]
  | pop ra => [ra]
  | call ra => [ra]
  | ret => []
  | add ra rb => [ra, rb]
  | mul ra rb => [ra, rb]

/-- The operands that are register numbers, in the order R96 checks them: operand a in every format, operand b in F2R
only. -/
def regOperands : Instr → List Byte
  | hlt => []
  | ldi ra _ => [ra]
  | prn ra => [ra]
  | push ra => [ra]
  | pop ra => [ra]
  | call ra => [ra]
  | ret => []
  | add ra rb => [ra, rb]
  | mul ra rb => [ra, rb]

/-- `OPCOUNT` (R6). -/
def operandCount (i : Instr) : Nat := i.operands.length

/-- The instruction width in cells: 1 + operand count (R70, R79). -/
def width (i : Instr) : Nat := 1 + i.operandCount

/-- The mnemonic, upper case (R82). -/
def mnemonic : Instr → String
  | hlt => "HLT"
  | ldi _ _ => "LDI"
  | prn _ => "PRN"
  | push _ => "PUSH"
  | pop _ => "POP"
  | call _ => "CALL"
  | ret => "RET"
  | add _ _ => "ADD"
  | mul _ _ => "MUL"

/-- A register operand in the spec's spelling, `R0` to `R7` (R82). -/
def regName (r : Byte) : String := "R" ++ toString r.toNat

/-- The spec's assembler spelling of an instruction (R82): `LDI R0, 8`, `MUL R0, R1`. -/
def asm : Instr → String
  | hlt => "HLT"
  | ldi ra imm => "LDI " ++ regName ra ++ ", " ++ toString imm.toNat
  | prn ra => "PRN " ++ regName ra
  | push ra => "PUSH " ++ regName ra
  | pop ra => "POP " ++ regName ra
  | call ra => "CALL " ++ regName ra
  | ret => "RET"
  | add ra rb => "ADD " ++ regName ra ++ ", " ++ regName rb
  | mul ra rb => "MUL " ++ regName ra ++ ", " ++ regName rb

end Instr

end Sys2Proof
end

