-- ==== Sys2Proof/WellFormed.lean ====
section
/-! DEFINITION. Which instruction terms are legal: every register operand names one of the eight registers
(30_encoding.md R77). -/

namespace Sys2Proof

/-- A register operand byte that names a register: `r <= 7`, the byte not masked (R77). -/
abbrev ValidReg (r : Byte) : Prop := r.toNat < 8

/-- Every register operand is valid. LDI's operand b is an immediate and every byte is legal (R78, R96). -/
abbrev Instr.WellFormed (i : Instr) : Prop := ∀ r ∈ i.regOperands, ValidReg r

end Sys2Proof
end

