-- ==== Sys2Proof/Decode.lean ====
section
/-! DEFINITION. Decoding, total on any cells and rejecting by name, and encoding (30_encoding.md). Both take the opcode
assignment `OPC` as an argument. -/

namespace Sys2Proof

/-- The handlers of the dispatch table: one per instruction except HLT, which the loop tests before dispatch (R76). -/
inductive Handler where
  | ldi | prn | push | pop | call | ret | add | mul
  deriving DecidableEq, Repr

/-- `OPCOUNT` of a handler (R6, R34). -/
def Handler.operandCount : Handler → Nat
  | .ldi => 2
  | .prn => 1
  | .push => 1
  | .pop => 1
  | .call => 1
  | .ret => 0
  | .add => 2
  | .mul => 2

/-- `Dispatch(op)`: the handler whose `OPC` value is the whole opcode byte, or none (R75, R76). -/
def dispatch (opc : Opc) (op : Byte) : Option Handler :=
  if op = opc.ldi then some .ldi
  else if op = opc.prn then some .prn
  else if op = opc.push then some .push
  else if op = opc.pop then some .pop
  else if op = opc.call then some .call
  else if op = opc.ret then some .ret
  else if op = opc.add then some .add
  else if op = opc.mul then some .mul
  else none

/-- Why the cells at `pc` give no instruction, by name. -/
inductive DecodeError where
  /-- The opcode cell itself is `absent` (R92). -/
  | absentOpcode
  /-- The opcode byte is not one of the nine `OPC` values (R80, R95). -/
  | unsupportedOpcode (op : Byte)
  /-- Operand `k` (1 or 2), which the instruction uses, is `absent` (R96). -/
  | absentOperand (k : Nat)
  deriving DecidableEq, Repr

/-- Take operand a from the cells after the opcode (R72, R96). -/
def takeOne (f : Byte → Instr) : List Byte → Except DecodeError (Instr × List Byte)
  | [] => .error (.absentOperand 1)
  | a :: rest => .ok (f a, rest)

/-- Take operands a and b from the cells after the opcode (R73, R74, R96). -/
def takeTwo (f : Byte → Byte → Instr) : List Byte → Except DecodeError (Instr × List Byte)
  | [] => .error (.absentOperand 1)
  | [_] => .error (.absentOperand 2)
  | a :: b :: rest => .ok (f a b, rest)

/-- Apply a handler's format to the cells after the opcode: it takes as many operands as it has, and an operand it does
not use may hold any byte or be absent (R79, R81). -/
def takeOperands : Handler → List Byte → Except DecodeError (Instr × List Byte)
  | .ldi, rest => takeTwo .ldi rest
  | .prn, rest => takeOne .prn rest
  | .push, rest => takeOne .push rest
  | .pop, rest => takeOne .pop rest
  | .call, rest => takeOne .call rest
  | .ret, rest => .ok (.ret, rest)
  | .add, rest => takeTwo .add rest
  | .mul, rest => takeTwo .mul rest

/-- Decode the instruction at the head of the cells that exist from `pc` upwards; the answer holds the cells that
follow it. The tests are in the loop's order (R90, R161): opcode absent, HLT, no handler, operand 1 absent, operand 2
absent. A register operand of 8 or more is decoded as it stands, and the instruction's meaning raises
`InvalidRegister` for it (R77, R96; notes/assumptions/6.md). -/
def decode (opc : Opc) : List Byte → Except DecodeError (Instr × List Byte)
  | [] => .error .absentOpcode
  | op :: rest =>
    if op = opc.hlt then .ok (.hlt, rest)
    else
      match dispatch opc op with
      | none => .error (.unsupportedOpcode op)
      | some h => takeOperands h rest

/-- The opcode byte of an instruction under `OPC` (R76). -/
def opcodeOf (opc : Opc) : Instr → Byte
  | .hlt => opc.hlt
  | .ldi _ _ => opc.ldi
  | .prn _ => opc.prn
  | .push _ => opc.push
  | .pop _ => opc.pop
  | .call _ => opc.call
  | .ret => opc.ret
  | .add _ _ => opc.add
  | .mul _ _ => opc.mul

/-- The cells of an instruction, lowest address first: opcode, operand a, operand b (R70 to R74). -/
def encode (opc : Opc) (i : Instr) : List Byte := opcodeOf opc i :: i.operands

/-- The three cells of a table word: bit 0 of `w` is bit 0 of the first cell, each cell is 8 bits on from the one
before, and every bit at or above `nbits` is 0. Three cells are the longest instruction (R70). -/
def tableCells (nbits w : Nat) : List Byte :=
  let v := w % 2 ^ nbits
  [BitVec.ofNat 8 v, BitVec.ofNat 8 (v / 256), BitVec.ofNat 8 (v / 65536)]

/-- The instruction the decoder reads from a table word under the default `OPC`. -/
def decodeTableWord (nbits w : Nat) : Option Instr :=
  match decode Config.opc (tableCells nbits w) with
  | .ok (i, _) => some i
  | .error _ => none

end Sys2Proof
end

