-- ==== Sys2Proof/Machine/Fetch.lean ====
section
/-! DEFINITION. Fetching the cells at `pc`, and what the loop does when they give no instruction (40_run_loop_hlt.md R91,
R92, R94, R95, R96). -/

namespace Sys2Proof.Machine

/-- The cells the loop reads at `pc`, `pc + 1` and `pc + 2`, less the `absent` ones (R91, R94). Absent cells are at
`0x100` and above, so what is left is the cells that exist, in order. -/
def fetchCells (s : State) : List Byte :=
  [0, 1, 2].filterMap (fun k => s.mem.read (s.pc.toNat + k))

/-- What the loop does when decoding rejects: an absent opcode halts exactly as HLT does (R92); the rest are faults
(R95, R96). -/
def rejectFetch (e : DecodeError) (s : State) : State :=
  match e with
  | .absentOpcode => s.halt
  | .unsupportedOpcode op => raise (.unsupportedOpcode op) s
  | .absentOperand k => raise (.absentOperand k) s

end Sys2Proof.Machine
end

