-- ==== Sys2Proof/Machine/Step.lean ====
section
/-! DEFINITION. The step (40_run_loop_hlt.md R90): one pass of the fetch-decode-execute loop. -/

namespace Sys2Proof.Machine

/-- One step under an opcode assignment, defined only in `RUNNING` (R90, R98): fetch, decode, and either the
instruction's meaning or the loop's own end. -/
def stepWith (opc : Opc) (s : State) : Host.Outcome State Fault Refusal :=
  match s.status with
  | .running =>
    match decode opc (fetchCells s) with
    | .ok (i, _) => exec i s
    | .error e => .next (rejectFetch e s)
  | .idle => .refused (.noStep .idle)
  | .halted => .refused (.noStep .halted)
  | .faulted => .refused (.noStep .faulted)

/-- One step under the default `OPC`. -/
def step (s : State) : Host.Outcome State Fault Refusal := stepWith Config.opc s

/-- The state with a table word's instruction in the three cells from `pc` upwards and the loop running, so that the
next step runs it. It stands for the host's Load and Run (R182, R183; notes/assumptions/4.md). -/
def State.withFetchWord (s : State) (nbits w : Nat) : State :=
  { s with status := .running, mem := s.mem.storeCells s.pc.toNat (tableCells nbits w) }

end Sys2Proof.Machine
end

