-- ==== Sys2Proof/Machine/HostOps.lean ====
section
/-! DEFINITION. The host interface: the three transactions Reset, Load and Run, and what the host can observe
(70_reset_and_hazards.md R180 to R183, R190 to R192). They are not steps: the host applies them from outside
(notes/assumptions/4.md). -/

namespace Sys2Proof.Machine

/-- The host's transactions (R190). -/
inductive HostOp where
  | reset
  | load (words : List Int)
  | run
  deriving DecidableEq, Repr

/-- A load fault: `fpc` is 0, and the cells written so far stay written (R162, R182). -/
def loadFault (e : FaultEvent) (s : State) : State := raiseAt 0 e s

/-- One word of a load: refused outside 0 to 255, else written to the cell of its index (R43, R182). -/
def loadWord (i : Nat) (w : Int) (s : State) : Except FaultEvent State :=
  if w < 0 ∨ w > 255 then .error (.loadValueRange i) else s.memWrite i (BitVec.ofInt 8 w)

/-- The words from index `i` on, in order; the first that cannot be loaded faults the load (R43, R182). -/
def loadFrom (i : Nat) : List Int → State → State
  | [], s => s
  | w :: ws, s =>
    match loadWord i w s with
    | .ok s' => loadFrom (i + 1) ws s'
    | .error e => loadFault e s

/-- What the host requires before Load and Run: `IDLE`, else the transaction is refused (R190). -/
def whenIdle (s : State) (s' : State) : Host.Outcome State Fault Refusal :=
  match s.status with
  | .idle => .next s'
  | .running => .refused (.hostRefused .running)
  | .halted => .refused (.hostRefused .halted)
  | .faulted => .refused (.hostRefused .faulted)

/-- Reset, in any status: every element at its reset value (R180). -/
def hostReset (_ : State) : Host.Outcome State Fault Refusal := .next State.reset

/-- Load(words) (R182). -/
def hostLoad (words : List Int) (s : State) : Host.Outcome State Fault Refusal := whenIdle s (loadFrom 0 words s)

/-- Run: `status <- RUNNING` (R183). -/
def hostRun (s : State) : Host.Outcome State Fault Refusal := whenIdle s { s with status := .running }

/-- One host transaction. -/
def hostStep (op : HostOp) (s : State) : Host.Outcome State Fault Refusal :=
  match op with
  | .reset => hostReset s
  | .load words => hostLoad words s
  | .run => hostRun s

/-! ### What the host observes -/

/-- Registers, `pc` and memory, which the host sees in `IDLE`, `HALTED` and `FAULTED` but not in `RUNNING` (R190). -/
structure Inspection where
  x   : Vector Byte 8
  pc  : PcWord
  mem : Memory
  deriving DecidableEq, Repr

/-- What the host gets when it inspects the machine (R190). -/
def inspect (s : State) : Option Inspection :=
  match s.status with
  | .running => none
  | .idle => some ⟨s.x, s.pc, s.mem⟩
  | .halted => some ⟨s.x, s.pc, s.mem⟩
  | .faulted => some ⟨s.x, s.pc, s.mem⟩

/-- What the host gets of the run, in any status: the run status, the fault record on `FAULTED`, and `out` so far
(R190). -/
def observeRun (s : State) : Status × Option FaultRecord × List Byte := (s.status, s.fault, s.out)

/-- A decimal digit's character. -/
def digitChar (d : Nat) : Char := Char.ofNat (48 + d)

/-- The decimal numeral of a number below 1000: no sign, no leading zeros, 0 is `0` (R29). -/
def numeral (n : Nat) : List Char :=
  if n < 10 then [digitChar n]
  else if n < 100 then [digitChar (n / 10), digitChar (n % 10)]
  else [digitChar (n / 100), digitChar (n / 10 % 10), digitChar (n % 10)]

/-- The text of one element of `out`: its numeral and one newline character (R29, R111). -/
def render (v : Byte) : List Char := numeral v.toNat ++ ['\n']

/-- The text the host sees: the renderings in order (R192). -/
def outText (out : List Byte) : List Char := out.flatMap render

end Sys2Proof.Machine
end

