-- ==== Sys2Proof/Safety.lean ====
section
/-! DEFINITION. What the statements are said in: the invariant of a legal state, the end of a run, R161's order of checks
and the spec's tables, each written from the spec's own words and not from the meanings. -/

namespace Sys2Proof.Machine

/-! ### Legal states -/

/-- What each cause may record as `info` (R151's column). -/
def FaultRecord.Legal (f : FaultRecord) : Prop :=
  match f.cause with
  | .unsupportedOpcode => 0 ≤ f.info ∧ f.info ≤ 255
  | .outOfBoundsWrite => f.info = -1 ∨ f.info = 256
  | .absentOperand => f.info = 1 ∨ f.info = 2
  | .invalidRegister => 8 ≤ f.info ∧ f.info ≤ 255
  | .stackPointerRange => f.info = 255
  | .returnAddressRange => f.info = 256
  | .loadValueRange => 0 ≤ f.info ∧ f.info ≤ 256

/-- The invariant every step and every host transaction keeps. -/
structure Inv (s : State) : Prop where
  /-- Memory is in its canonical form, inside the 256 cells (R32). -/
  memWf : s.mem.wf
  /-- `pc` is 0 to `0x100` (R24, R26). -/
  pcRange : s.pc.toNat ≤ 0x100
  /-- There is a fault record exactly in `FAULTED` (R27, R28, R162). -/
  faultIff : s.status = .faulted ↔ s.fault ≠ none
  /-- The record's `fpc` is the `pc` the fault left unchanged (R28, R162), and its `info` fits its cause (R151). -/
  faultLegal : ∀ f, s.fault = some f → f.fpc = s.pc ∧ f.Legal
  /-- In `IDLE` only memory can differ from the state after Reset (R180, R182). -/
  idleReset : s.status = .idle → s = { State.reset with mem := s.mem }

/-- The states the host and the machine can reach, under an opcode assignment: Reset, transactions and steps. -/
inductive Reachable (opc : Opc) : State → Prop where
  | reset : Reachable opc State.reset
  | host {s s' : State} (op : HostOp) : Reachable opc s → hostStep op s = .next s' → Reachable opc s'
  | step {s s' : State} : Reachable opc s → stepWith opc s = .next s' → Reachable opc s'

/-! ### The end of a run -/

/-- A run has ended (R191). -/
def State.ended (s : State) : Prop := s.status = .halted ∨ s.status = .faulted

/-- The run ended because HLT was fetched at `pc` (R191). -/
def State.haltedAtHlt (s : State) : Prop := s.status = .halted ∧ s.pc.toNat ≤ 0xFF

/-- The run ended because the program ran off the end of memory (R191). -/
def State.ranOffEnd (s : State) : Prop := s.status = .halted ∧ s.pc.toNat = 0x100

/-- Fault entry written out (R162): `status` and `fault` change, and nothing else. -/
def State.faultedWith (s : State) (cause : FaultCause) (info : Int) : State :=
  { s with status := .faulted, fault := some { cause := cause, fpc := s.pc, info := info } }

/-! ### The order of the checks -/

/-- What one step of a running machine comes to. -/
inductive Verdict where
  | halts
  | faults (cause : FaultCause) (info : Int)
  | executes
  deriving DecidableEq, Repr

/-- R161's ten checks, in its order, over the cells at `pc` and the registers. `h` is the handler found for the opcode,
`a` and `b` the operand cells. -/
def checkHandler (h : Handler) (a b : Option Byte) (s : State) : Verdict :=
  let va := (a.getD 0).toNat
  let vb := (b.getD 0).toNat
  if 1 ≤ h.operandCount ∧ a = none then .faults .absentOperand 1
  else if h.operandCount = 2 ∧ b = none then .faults .absentOperand 2
  else if 1 ≤ h.operandCount ∧ 8 ≤ va then .faults .invalidRegister va
  else if (h = .add ∨ h = .mul) ∧ 8 ≤ vb then .faults .invalidRegister vb
  else if h = .call ∧ s.pc.toNat = 0xFE then .faults .returnAddressRange 0x100
  else if (h = .push ∨ h = .call) ∧ s.x[7] = 0 then .faults .outOfBoundsWrite (-1)
  else if h = .ret ∧ s.x[7] = 0xFF then .faults .stackPointerRange 0xFF
  else if h = .pop ∧ va ≠ 7 ∧ s.x[7] = 0xFF then .faults .stackPointerRange 0xFF
  else if h = .pop ∧ va = 7 ∧ s.mem.read s.x[7].toNat = some 0xFF then .faults .stackPointerRange 0xFF
  else .executes

/-- R161 for the instruction at `pc`: halts first, then the faults in order. -/
def verdict (opc : Opc) (s : State) : Verdict :=
  match s.mem.read s.pc.toNat with
  | none => .halts
  | some op =>
    if op = opc.hlt then .halts
    else
      match dispatch opc op with
      | none => .faults .unsupportedOpcode op.toNat
      | some h => checkHandler h (s.mem.read (s.pc.toNat + 1)) (s.mem.read (s.pc.toNat + 2)) s

/-! ### The spec's tables -/

/-- R21's column "reads": the register numbers an instruction reads. -/
def regsRead : Instr → List Nat
  | .hlt => []
  | .ldi _ _ => []
  | .prn ra => [ra.toNat]
  | .push ra => [7, ra.toNat]
  | .pop _ => [7]
  | .call ra => [7, ra.toNat]
  | .ret => [7]
  | .add ra rb => [ra.toNat, rb.toNat]
  | .mul ra rb => [ra.toNat, rb.toNat]

/-- R21's column "writes": the register numbers an instruction writes. -/
def regsWritten : Instr → List Nat
  | .hlt => []
  | .ldi ra _ => [ra.toNat]
  | .prn _ => []
  | .push _ => [7]
  | .pop ra => [ra.toNat, 7]
  | .call _ => [7]
  | .ret => [7]
  | .add ra _ => [ra.toNat]
  | .mul ra _ => [ra.toNat]

/-- R45: the instructions that write memory, which do it at the decremented stack pointer. -/
def storesToStack : Instr → Bool
  | .push _ => true
  | .call _ => true
  | .hlt => false
  | .ldi _ _ => false
  | .prn _ => false
  | .pop _ => false
  | .ret => false
  | .add _ _ => false
  | .mul _ _ => false

/-- The instruction changes `pc` by a transfer, not by its width (R25, R133). -/
def transfers : Instr → Bool
  | .call _ => true
  | .ret => true
  | .hlt => false
  | .ldi _ _ => false
  | .prn _ => false
  | .push _ => false
  | .pop _ => false
  | .add _ _ => false
  | .mul _ _ => false

/-! ### Sequences of instructions -/

/-- Instructions performed one after another, each by its meaning; it stops at the first that does not answer a next
state. -/
def execAll : List Instr → State → Host.Outcome State Fault Refusal
  | [], s => .next s
  | i :: is, s =>
    match exec i s with
    | .next s' => execAll is s'
    | .fault f => .fault f
    | .refused r => .refused r

/-- The cells of an instruction stand at an address: each byte of its encoding in one cell, from `a` upwards. -/
def CodeAt (opc : Opc) (i : Instr) (a : Nat) (m : Memory) : Prop :=
  ∀ k (h : k < (encode opc i).length), m.read (a + k) = some ((encode opc i)[k])

end Sys2Proof.Machine
end

