-- ==== Sys2Proof/Certificates/Slice0/Obligations.lean ====
section
/-! DEFINITION. The statements for the provers, from the numbered rules of spec/. `opc` ranges over every opcode assignment,
with the spec's constraint (`opc.Valid`) where it is needed; `s.faultedWith c n` is R162's fault entry written out. Where a
statement rests on a decision the spec marks as its own, its docstring names it (D<n>, 92_eei_decisions.md); all of them are
notes/assumptions/3.md, and the default opcode values (D1) are notes/assumptions/2.md. -/

open Sys2Proof Sys2Proof.Machine

/-! ### Encoding -/

/-- Every instruction, with every operand byte, comes back from its cells whatever cells follow. -/
def Obligations.DecodeOfEncodeIsIdentity : Prop :=
  ∀ opc : Opc, opc.Valid → ∀ (i : Instr) (rest : List Byte), decode opc (encode opc i ++ rest) = .ok (i, rest)

/-- Only an instruction's own cells decode to it: what was decoded, encoded again, is the cells that were read. -/
def Obligations.DecodedCellsAreTheEncoding : Prop :=
  ∀ (opc : Opc) (cells : List Byte) (i : Instr) (rest : List Byte),
    decode opc cells = .ok (i, rest) → cells = encode opc i ++ rest

/-- The cells of R76's table and of R71 to R74's formats, under the default `OPC`, decode to the instructions they stand
for. The default numbers are D1, from general knowledge. -/
def Obligations.DefaultWordsDecode : Prop :=
  decode Config.opc [0b00000001] = .ok (.hlt, []) ∧
  decode Config.opc [0b10000010, 0x03, 0x2A] = .ok (.ldi 3 42, []) ∧
  decode Config.opc [0b01000111, 0x07] = .ok (.prn 7, []) ∧
  decode Config.opc [0b01000101, 0x02] = .ok (.push 2, []) ∧
  decode Config.opc [0b01000110, 0x01] = .ok (.pop 1, []) ∧
  decode Config.opc [0b01010000, 0x06] = .ok (.call 6, []) ∧
  decode Config.opc [0b00010001] = .ok (.ret, []) ∧
  decode Config.opc [0b10100000, 0x00, 0x01] = .ok (.add 0 1, []) ∧
  decode Config.opc [0b10100010, 0x04, 0x05] = .ok (.mul 4 5, [])

/-- The opcode byte is compared whole: two opcode bytes that decode give the same operation exactly when they are the
same byte. -/
def Obligations.OpcodeByteIsComparedWhole : Prop :=
  ∀ (opc : Opc) (op op' : Byte) (cells cells' rest rest' : List Byte) (i i' : Instr), opc.Valid →
    decode opc (op :: cells) = .ok (i, rest) → decode opc (op' :: cells') = .ok (i', rest') →
    (op = op' ↔ i.mnemonic = i'.mnemonic)

/-! ### The loop -/

/-- The step runs the instruction the decoder reads at `pc`. -/
def Obligations.StepRunsDecodedInstruction : Prop :=
  ∀ (opc : Opc) (s : State) (i : Instr) (rest : List Byte), s.status = .running →
    decode opc (fetchCells s) = .ok (i, rest) → stepWith opc s = exec i s

/-- The step runs the instruction whose cells stand at `pc`; the cells after them may hold anything or be absent (R81,
R96). -/
def Obligations.StepRunsInstructionInMemory : Prop :=
  ∀ (opc : Opc) (s : State) (i : Instr), opc.Valid → s.status = .running → CodeAt opc i s.pc.toNat s.mem →
    stepWith opc s = exec i s

/-- R161: the ten checks in their order decide what a step comes to. Items 4 to 10 are in the spec's own order (D12). -/
def Obligations.StepFollowsTheCheckOrder : Prop :=
  ∀ (opc : Opc) (s : State), s.status = .running →
    (verdict opc s = .halts → stepWith opc s = .next { s with status := .halted }) ∧
    (∀ cause info, verdict opc s = .faults cause info → stepWith opc s = .next (s.faultedWith cause info)) ∧
    (verdict opc s = .executes → ∃ t, stepWith opc s = .next t ∧ t.status = .running ∧ t.fault = s.fault)

/-- A running machine always has a next state: no instruction is left without a meaning. -/
def Obligations.RunningStepAnswersNext : Prop :=
  ∀ (opc : Opc) (s : State), s.status = .running → ∃ t, stepWith opc s = .next t

/-- R98: outside `RUNNING` no step exists, outside `IDLE` Load and Run are refused, and Reset always leads to the reset
state (D9, D17). -/
def Obligations.EndStatesAbsorbUntilReset : Prop :=
  ∀ (opc : Opc) (s : State) (words : List Int),
    (s.status ≠ .running → stepWith opc s = .refused (.noStep s.status)) ∧
    (s.status ≠ .idle → hostStep (.load words) s = .refused (.hostRefused s.status) ∧
      hostStep .run s = .refused (.hostRefused s.status)) ∧
    hostStep .reset s = .next State.reset

/-- R92: an absent opcode halts and changes nothing else; it is what follows an instruction that is no transfer and
whose last cell is `0xFF` (D4). -/
def Obligations.EndOfMemoryHalts : Prop :=
  ∀ (opc : Opc) (s : State), s.status = .running →
    (s.pc.toNat = 0x100 → stepWith opc s = .next { s with status := .halted }) ∧
    (∀ (i : Instr) (t : State), transfers i = false → exec i s = .next t → t.status = .running →
      s.pc.toNat + i.width = 0x100 → stepWith opc t = .next { t with status := .halted })

/-- R80, R95: a byte outside `OPC` faults wherever it is fetched, at `0xFE` and `0xFF` too; under the default `OPC`
these are 247 bytes, `0x00` among them; that clause rests on D1 (notes/assumptions/2.md, PRESUMED). -/
def Obligations.UnassignedOpcodeFaults : Prop :=
  (∀ (opc : Opc) (s : State) (op : Byte), s.status = .running → s.mem.read s.pc.toNat = some op → op ∉ opc.toList →
    stepWith opc s = .next (s.faultedWith .unsupportedOpcode op.toNat)) ∧
  ((List.range 256).filter (fun n => BitVec.ofNat 8 n ∉ Config.opc.toList)).length = 247 ∧
  (0x00 : Byte) ∉ Config.opc.toList

/-- R154: an operand the instruction uses that lies at `0x100` or above faults, and this fault arises only at `0xFF`
(operand 1) and at `0xFE` (operand 2, of LDI, ADD and MUL) (D5). -/
def Obligations.AbsentUsedOperandFaults : Prop :=
  ∀ (opc : Opc) (s : State), s.status = .running →
    (∀ (op : Byte) (h : Handler), s.mem.read s.pc.toNat = some op → op ≠ opc.hlt → dispatch opc op = some h →
      (1 ≤ h.operandCount → s.pc.toNat = 0xFF → stepWith opc s = .next (s.faultedWith .absentOperand 1)) ∧
      (h.operandCount = 2 → s.pc.toNat = 0xFE → stepWith opc s = .next (s.faultedWith .absentOperand 2))) ∧
    (∀ (t : State) (f : FaultRecord), s.fault = none → stepWith opc s = .next t → t.fault = some f →
      f.cause = .absentOperand →
      (f.info = 1 ∧ s.pc.toNat = 0xFF) ∨
      (f.info = 2 ∧ s.pc.toNat = 0xFE ∧
        ∃ op, s.mem.read 0xFE = some op ∧ op ∈ [opc.ldi, opc.add, opc.mul]))

/-- R155: the first register operand byte of 8 to 255 faults with that byte, and a well-formed instruction never raises
this fault (D6). -/
def Obligations.InvalidRegisterFaults : Prop :=
  ∀ (i : Instr) (s : State), s.pc.toNat + i.operandCount ≤ 0xFF →
    (∀ r, i.regOperands.find? (fun r => 8 ≤ r.toNat) = some r →
      exec i s = .next (s.faultedWith .invalidRegister r.toNat)) ∧
    (∀ (t : State) (f : FaultRecord), i.WellFormed → s.fault = none → exec i s = .next t → t.fault = some f →
      f.cause ≠ .invalidRegister)

/-! ### Each instruction -/

/-- R93: HLT halts with `pc` at its own cell, from every address of memory, and nothing else changes. -/
def Obligations.HltHalts : Prop :=
  ∀ (opc : Opc) (s : State),
    encode opc .hlt = [opc.hlt] ∧
    exec .hlt s = .next { s with status := .halted } ∧
    (s.status = .running → s.mem.read s.pc.toNat = some opc.hlt →
      stepWith opc s = .next { s with status := .halted })

/-- R110: LDI, with its faults and the source's property of LDI followed by PRN. The default opcode byte is D1
(notes/assumptions/2.md, PRESUMED) and the operand faults are D5 and D6 (notes/assumptions/3.md), as `exec` itself
checks them (notes/assumptions/7.md). -/
def Obligations.LdiLoadsImmediate : Prop :=
  ∀ (opc : Opc) (s : State) (ra imm : Byte),
    encode opc (.ldi ra imm) = [opc.ldi, ra, imm] ∧ Config.opc.ldi = 0x82 ∧
    (s.pc.toNat = 0xFF → exec (.ldi ra imm) s = .next (s.faultedWith .absentOperand 1)) ∧
    (s.pc.toNat = 0xFE → exec (.ldi ra imm) s = .next (s.faultedWith .absentOperand 2)) ∧
    (s.pc.toNat ≤ 0xFD → 8 ≤ ra.toNat → exec (.ldi ra imm) s = .next (s.faultedWith .invalidRegister ra.toNat)) ∧
    (s.pc.toNat ≤ 0xFD → ∀ ha : ra.toNat < 8,
      exec (.ldi ra imm) s = .next { s with x := s.x.set ra.toNat imm, pc := s.pc + 3 }) ∧
    (s.pc.toNat ≤ 0xFB → ra.toNat < 8 →
      ∃ t u, exec (.ldi ra imm) s = .next t ∧ exec (.prn ra) t = .next u ∧ u.out = s.out ++ [imm] ∧
        u.pc.toNat = s.pc.toNat + 5)

/-- R111: PRN, with its faults and the text its element stands for. The default opcode byte is D1
(notes/assumptions/2.md, PRESUMED) and the operand faults are D5 and D6 (notes/assumptions/3.md); the text's
characters are the model's choice (notes/assumptions/13.md, DESIGN CHOICE). -/
def Obligations.PrnAppendsRegister : Prop :=
  ∀ (opc : Opc) (s : State) (ra : Byte),
    encode opc (.prn ra) = [opc.prn, ra] ∧ Config.opc.prn = 0x47 ∧
    (s.pc.toNat = 0xFF → exec (.prn ra) s = .next (s.faultedWith .absentOperand 1)) ∧
    (s.pc.toNat ≤ 0xFE → 8 ≤ ra.toNat → exec (.prn ra) s = .next (s.faultedWith .invalidRegister ra.toNat)) ∧
    (s.pc.toNat ≤ 0xFE → ∀ ha : ra.toNat < 8,
      exec (.prn ra) s = .next { s with out := s.out ++ [s.x[ra.toNat]], pc := s.pc + 2 }) ∧
    (∀ v : Byte, outText (s.out ++ [v]) = outText s.out ++ numeral v.toNat ++ ['\n']) ∧
    numeral 72 = ['7', '2'] ∧ numeral 0 = ['0'] ∧ numeral 255 = ['2', '5', '5']

/-- R120: PUSH, with its faults. The value is read after the decrement, so `PUSH R7` pushes the new stack pointer
(derived in R120); the stack pointer does not wrap (D3). The default opcode byte is D1 (notes/assumptions/2.md,
PRESUMED) and the operand faults are D5 and D6 (notes/assumptions/3.md). -/
def Obligations.PushStoresBelowStackPointer : Prop :=
  ∀ (opc : Opc) (s : State) (ra : Byte),
    encode opc (.push ra) = [opc.push, ra] ∧ Config.opc.push = 0x45 ∧
    (s.pc.toNat = 0xFF → exec (.push ra) s = .next (s.faultedWith .absentOperand 1)) ∧
    (s.pc.toNat ≤ 0xFE → 8 ≤ ra.toNat → exec (.push ra) s = .next (s.faultedWith .invalidRegister ra.toNat)) ∧
    (s.pc.toNat ≤ 0xFE → ra.toNat < 8 → s.x[7] = 0 →
      exec (.push ra) s = .next (s.faultedWith .outOfBoundsWrite (-1))) ∧
    (s.pc.toNat ≤ 0xFE → ∀ ha : ra.toNat < 8, 1 ≤ s.x[7].toNat →
      ∃ t, exec (.push ra) s = .next t ∧
        t = { s with x := s.x.set 7 (s.x[7] - 1), pc := s.pc + 2, mem := t.mem } ∧
        t.mem.read (s.x[7].toNat - 1) = some (if ra = 7 then s.x[7] - 1 else s.x[ra.toNat]) ∧
        ∀ a, a ≠ s.x[7].toNat - 1 → t.mem.read a = s.mem.read a)

/-- R121: POP, with its faults. `POP R7` leaves the popped byte plus 1 (derived in R121); past `0xFF` it faults (D3).
The default opcode byte is D1 (notes/assumptions/2.md, PRESUMED) and the operand faults are D5 and D6
(notes/assumptions/3.md). -/
def Obligations.PopLoadsFromStackPointer : Prop :=
  ∀ (opc : Opc) (s : State) (ra v : Byte), s.mem.read s.x[7].toNat = some v →
    encode opc (.pop ra) = [opc.pop, ra] ∧ Config.opc.pop = 0x46 ∧
    (s.pc.toNat = 0xFF → exec (.pop ra) s = .next (s.faultedWith .absentOperand 1)) ∧
    (s.pc.toNat ≤ 0xFE → 8 ≤ ra.toNat → exec (.pop ra) s = .next (s.faultedWith .invalidRegister ra.toNat)) ∧
    (s.pc.toNat ≤ 0xFE → ra.toNat < 7 → s.x[7] = 0xFF →
      exec (.pop ra) s = .next (s.faultedWith .stackPointerRange 0xFF)) ∧
    (s.pc.toNat ≤ 0xFE → ra = 7 → v = 0xFF → exec (.pop ra) s = .next (s.faultedWith .stackPointerRange 0xFF)) ∧
    (s.pc.toNat ≤ 0xFE → ∀ ha : ra.toNat < 7, s.x[7] ≠ 0xFF →
      exec (.pop ra) s = .next { s with x := (s.x.set ra.toNat v).set 7 (s.x[7] + 1), pc := s.pc + 2 }) ∧
    (s.pc.toNat ≤ 0xFE → ra = 7 → v ≠ 0xFF →
      exec (.pop ra) s = .next { s with x := s.x.set 7 (v + 1), pc := s.pc + 2 })

/-- R130: CALL, with its faults in the order tested. The target is read after the decrement, so `CALL R7` goes to the
new stack pointer (derived in R130); a return address of `0x100` faults (D3). The default opcode byte is D1
(notes/assumptions/2.md, PRESUMED) and the operand faults are D5 and D6 (notes/assumptions/3.md). -/
def Obligations.CallPushesReturnAddress : Prop :=
  ∀ (opc : Opc) (s : State) (ra : Byte),
    encode opc (.call ra) = [opc.call, ra] ∧ Config.opc.call = 0x50 ∧
    (s.pc.toNat = 0xFF → exec (.call ra) s = .next (s.faultedWith .absentOperand 1)) ∧
    (s.pc.toNat ≤ 0xFE → 8 ≤ ra.toNat → exec (.call ra) s = .next (s.faultedWith .invalidRegister ra.toNat)) ∧
    (s.pc.toNat = 0xFE → ra.toNat < 8 → exec (.call ra) s = .next (s.faultedWith .returnAddressRange 0x100)) ∧
    (s.pc.toNat ≤ 0xFD → ra.toNat < 8 → s.x[7] = 0 →
      exec (.call ra) s = .next (s.faultedWith .outOfBoundsWrite (-1))) ∧
    (s.pc.toNat ≤ 0xFD → ∀ ha : ra.toNat < 8, 1 ≤ s.x[7].toNat →
      ∃ t, exec (.call ra) s = .next t ∧
        t = { s with x := s.x.set 7 (s.x[7] - 1), pc := t.pc, mem := t.mem } ∧
        t.pc.toNat = (if ra = 7 then s.x[7] - 1 else s.x[ra.toNat]).toNat ∧
        t.mem.read (s.x[7].toNat - 1) = some (BitVec.ofNat 8 (s.pc.toNat + 2)) ∧
        ∀ a, a ≠ s.x[7].toNat - 1 → t.mem.read a = s.mem.read a)

/-- R131: RET, with its one fault; it uses no operand and runs at every address; past `0xFF` the stack pointer faults
(D3). The default opcode byte is D1 (notes/assumptions/2.md, PRESUMED). -/
def Obligations.RetPopsProgramCounter : Prop :=
  ∀ (opc : Opc) (s : State) (v : Byte), s.mem.read s.x[7].toNat = some v →
    encode opc .ret = [opc.ret] ∧ Config.opc.ret = 0x11 ∧
    (s.x[7] = 0xFF → exec .ret s = .next (s.faultedWith .stackPointerRange 0xFF)) ∧
    (s.x[7] ≠ 0xFF → exec .ret s = .next { s with x := s.x.set 7 (s.x[7] + 1), pc := v.setWidth 9 })

/-- R140: ADD, with its faults and the source's property where the sum fits; the wrap is D2. The default opcode byte
is D1 (notes/assumptions/2.md, PRESUMED) and the operand faults are D5 and D6 (notes/assumptions/3.md). -/
def Obligations.AddKeepsLowEightBits : Prop :=
  ∀ (opc : Opc) (s : State) (ra rb : Byte),
    encode opc (.add ra rb) = [opc.add, ra, rb] ∧ Config.opc.add = 0xA0 ∧
    (s.pc.toNat = 0xFF → exec (.add ra rb) s = .next (s.faultedWith .absentOperand 1)) ∧
    (s.pc.toNat = 0xFE → exec (.add ra rb) s = .next (s.faultedWith .absentOperand 2)) ∧
    (s.pc.toNat ≤ 0xFD → 8 ≤ ra.toNat → exec (.add ra rb) s = .next (s.faultedWith .invalidRegister ra.toNat)) ∧
    (s.pc.toNat ≤ 0xFD → ra.toNat < 8 → 8 ≤ rb.toNat →
      exec (.add ra rb) s = .next (s.faultedWith .invalidRegister rb.toNat)) ∧
    (s.pc.toNat ≤ 0xFD → ∀ (ha : ra.toNat < 8) (hb : rb.toNat < 8),
      ∃ t, exec (.add ra rb) s = .next t ∧ t = { s with x := s.x.set ra.toNat t.x[ra.toNat], pc := s.pc + 3 } ∧
        t.x[ra.toNat].toNat = (s.x[ra.toNat].toNat + s.x[rb.toNat].toNat) % 256 ∧
        (t.x[ra.toNat].toNat = s.x[ra.toNat].toNat + s.x[rb.toNat].toNat ↔
          s.x[ra.toNat].toNat + s.x[rb.toNat].toNat ≤ 255))

/-- R141: MUL, with its faults and the source's property where the product fits; the wrap is D2. The default opcode
byte is D1 (notes/assumptions/2.md, PRESUMED) and the operand faults are D5 and D6 (notes/assumptions/3.md). -/
def Obligations.MulKeepsLowEightBits : Prop :=
  ∀ (opc : Opc) (s : State) (ra rb : Byte),
    encode opc (.mul ra rb) = [opc.mul, ra, rb] ∧ Config.opc.mul = 0xA2 ∧
    (s.pc.toNat = 0xFF → exec (.mul ra rb) s = .next (s.faultedWith .absentOperand 1)) ∧
    (s.pc.toNat = 0xFE → exec (.mul ra rb) s = .next (s.faultedWith .absentOperand 2)) ∧
    (s.pc.toNat ≤ 0xFD → 8 ≤ ra.toNat → exec (.mul ra rb) s = .next (s.faultedWith .invalidRegister ra.toNat)) ∧
    (s.pc.toNat ≤ 0xFD → ra.toNat < 8 → 8 ≤ rb.toNat →
      exec (.mul ra rb) s = .next (s.faultedWith .invalidRegister rb.toNat)) ∧
    (s.pc.toNat ≤ 0xFD → ∀ (ha : ra.toNat < 8) (hb : rb.toNat < 8),
      ∃ t, exec (.mul ra rb) s = .next t ∧ t = { s with x := s.x.set ra.toNat t.x[ra.toNat], pc := s.pc + 3 } ∧
        t.x[ra.toNat].toNat = (s.x[ra.toNat].toNat * s.x[rb.toNat].toNat) % 256 ∧
        (t.x[ra.toNat].toNat = s.x[ra.toNat].toNat * s.x[rb.toNat].toNat ↔
          s.x[ra.toNat].toNat * s.x[rb.toNat].toNat ≤ 255))

/-! ### Stack and call laws -/

/-- R122(a): PUSH then POP of one register, `R7` included, restores every register, the stack pointer among them
(derived in R122). -/
def Obligations.PushThenPopRestores : Prop :=
  ∀ (s : State) (r : Byte), r.toNat < 8 → 1 ≤ s.x[7].toNat → s.pc.toNat ≤ 0xFC →
    ∃ t u, exec (.push r) s = .next t ∧ exec (.pop r) t = .next u ∧ u.x = s.x ∧ u.pc.toNat = s.pc.toNat + 4

/-- R122(b), (c): N pushes take the stack pointer down by N and write exactly the cells `s-1` down to `s-N`, in order
(derived in R122). -/
def Obligations.PushesDescendTheStack : Prop :=
  ∀ (rs : List Byte) (s : State), (∀ r ∈ rs, r.toNat < 8) → rs.length ≤ s.x[7].toNat →
    s.pc.toNat + 2 * rs.length ≤ 0x100 →
    ∃ t, execAll (rs.map .push) s = .next t ∧ t.x[7].toNat = s.x[7].toNat - rs.length ∧
      t.pc.toNat = s.pc.toNat + 2 * rs.length ∧
      (∀ j (hj : j < 7), t.x[j] = s.x[j]) ∧
      (∀ k (hk : k < rs.length), t.mem.read (s.x[7].toNat - 1 - k) =
        if rs[k] = 7 then some (BitVec.ofNat 8 (s.x[7].toNat - 1 - k)) else s.x[rs[k].toNat]?) ∧
      (∀ a, a < s.x[7].toNat - rs.length ∨ s.x[7].toNat ≤ a → t.mem.read a = s.mem.read a)

/-- R122(b): N pops that do not name `R7`, and none of which starts with the stack pointer at `0xFF`, take it up by N;
memory is unchanged (derived in R122). -/
def Obligations.PopsAscendTheStack : Prop :=
  ∀ (rs : List Byte) (s : State), (∀ r ∈ rs, r.toNat < 7) → s.x[7].toNat + rs.length ≤ 0xFF →
    s.pc.toNat + 2 * rs.length ≤ 0x100 →
    ∃ t, execAll (rs.map .pop) s = .next t ∧ t.x[7].toNat = s.x[7].toNat + rs.length ∧
      t.pc.toNat = s.pc.toNat + 2 * rs.length ∧ t.mem = s.mem ∧
      (∀ j (hj : j < 7), BitVec.ofNat 8 j ∉ rs → t.x[j] = s.x[j])

/-- R122(b): pushes and then the matching pops in reverse order restore every register and the stack pointer (derived
in R122). -/
def Obligations.PushesThenPopsRestore : Prop :=
  ∀ (rs : List Byte) (s : State), (∀ r ∈ rs, r.toNat < 7) → rs.length ≤ s.x[7].toNat →
    s.pc.toNat + 4 * rs.length ≤ 0x100 →
    ∃ t, execAll (rs.map .push ++ rs.reverse.map .pop) s = .next t ∧ t.x = s.x ∧
      t.pc.toNat = s.pc.toNat + 4 * rs.length

/-- R132: from a CALL that does not fault, a RET in any state that has the stack pointer and the return-address cell as
the CALL left them resumes at `pc_call + 2` with the stack pointer restored (derived in R132). -/
def Obligations.ReturnResumesAfterCall : Prop :=
  ∀ (s : State) (r : Byte), s.pc.toNat ≤ 0xFD → r.toNat < 8 → 1 ≤ s.x[7].toNat →
    ∃ t, exec (.call r) s = .next t ∧
      ∀ u : State, u.x[7] = t.x[7] → u.mem.read t.x[7].toNat = t.mem.read t.x[7].toNat →
        ∃ v, exec .ret u = .next v ∧ v.pc.toNat = s.pc.toNat + 2 ∧ v.x[7] = s.x[7]

/-! ### What instructions leave unchanged -/

/-- Frame, registers: every register outside R21's column "writes" is unchanged, for all nine instructions. -/
def Obligations.OnlyListedRegistersChange : Prop :=
  ∀ (i : Instr) (s t : State), exec i s = .next t →
    ∀ j (hj : j < 8), j ∉ regsWritten i → t.x[j] = s.x[j]

/-- Frame, memory: PUSH and CALL change at most the cell at the decremented stack pointer, and nothing when the decrement
faults; the other seven change no byte. -/
def Obligations.OnlyTheStackCellChanges : Prop :=
  ∀ (i : Instr) (s t : State), exec i s = .next t →
    (storesToStack i = false → ∀ a, t.mem.read a = s.mem.read a) ∧
    (storesToStack i = true → ∀ s₁, decSp s = .ok s₁ → ∀ a, a ≠ stackAddress s₁ → t.mem.read a = s.mem.read a) ∧
    (storesToStack i = true → ∀ e, decSp s = .error e → ∀ a, t.mem.read a = s.mem.read a)

/-- Frame, the rest: `out` changes only by PRN; `status` and `fault` change only by HLT, which halts, and by a fault,
which changes nothing else. -/
def Obligations.OutputAndStatusFrame : Prop :=
  ∀ (i : Instr) (s t : State), exec i s = .next t →
    ((∀ r, i ≠ .prn r) → t.out = s.out) ∧
    ((t.status = s.status ∧ t.fault = s.fault) ∨ (i = .hlt ∧ t = { s with status := .halted }) ∨
      ∃ cause info, t = s.faultedWith cause info)

/-- R21's column "reads": change any register an instruction does not read, and everything it does is the same. -/
def Obligations.OnlyListedRegistersAreRead : Prop :=
  ∀ (i : Instr) (s t : State) (y : Vector Byte 8), s.status = .running →
    (∀ j (hj : j < 8), j ∈ regsRead i → y[j] = s.x[j]) → exec i s = .next t →
    ∃ u, exec i { s with x := y } = .next u ∧ u.pc = t.pc ∧ u.mem = t.mem ∧ u.status = t.status ∧
      u.fault = t.fault ∧ u.out = t.out ∧
      (∀ j (hj : j < 8), j ∈ regsWritten i → t.status = .running → u.x[j] = t.x[j]) ∧
      (∀ j (hj : j < 8), j ∉ regsWritten i → u.x[j] = y[j])

/-- R25: how each instruction, the end-of-memory halt and every fault leave `pc`. -/
def Obligations.ProgramCounterAfterInstruction : Prop :=
  ∀ (opc : Opc) (i : Instr) (s t : State), s.status = .running →
    (stepWith opc s = .next t → s.pc.toNat = 0x100 → t.pc = s.pc) ∧
    (stepWith opc s = .next t → t.status = .faulted → t.pc = s.pc) ∧
    (exec i s = .next t →
      (t.status = .faulted → t.pc = s.pc) ∧
      (i = .hlt → t.pc = s.pc) ∧
      (t.status = .running → transfers i = false → t.pc.toNat = s.pc.toNat + i.width) ∧
      (∀ r (hr : r.toNat < 8), t.status = .running → i = .call r → t.pc = (t.x[r.toNat]).setWidth 9) ∧
      (∀ v, t.status = .running → i = .ret → s.mem.read s.x[7].toNat = some v → t.pc = v.setWidth 9))

/-- R26: `pc` never wraps and never passes `0x100`; CALL and RET give 0 to `0xFF` (derived in R26; D4, D5). -/
def Obligations.ProgramCounterNeverWraps : Prop :=
  ∀ (opc : Opc) (s t : State), s.status = .running → s.pc.toNat ≤ 0x100 → stepWith opc s = .next t →
    t.pc.toNat ≤ 0x100 ∧
    ∀ i rest, decode opc (fetchCells s) = .ok (i, rest) → t.status = .running →
      (transfers i = false → t.pc.toNat = s.pc.toNat + i.width) ∧ (transfers i = true → t.pc.toNat ≤ 0xFF)

/-! ### The whole machine -/

/-- The invariant is kept by every step, under every opcode assignment. -/
def Obligations.StepKeepsInvariant : Prop :=
  ∀ (opc : Opc) (s t : State), Inv s → stepWith opc s = .next t → Inv t

/-- The invariant is kept by every host transaction. -/
def Obligations.HostTransactionKeepsInvariant : Prop :=
  ∀ (op : HostOp) (s t : State), Inv s → hostStep op s = .next t → Inv t

/-- The reset state meets the invariant. -/
def Obligations.ResetMeetsInvariant : Prop := Inv State.reset

/-- R10: a step that faults changes only `status` and `fault`, and the record's `fpc` is the `pc` of that step (D11). -/
def Obligations.FaultingStepIsPrecise : Prop :=
  ∀ (opc : Opc) (s t : State), s.status = .running → stepWith opc s = .next t → t.status = .faulted →
    ∃ cause info, t = s.faultedWith cause info

/-- R164: a step is only ever taken with no fault recorded, and after the first fault neither a step nor Load nor Run
exists (derived in R164). -/
def Obligations.FaultsCannotNest : Prop :=
  ∀ (opc opc' : Opc) (s t : State), Inv s → stepWith opc s = .next t →
    s.fault = none ∧
    (t.fault ≠ none → stepWith opc' t = .refused (.noStep .faulted) ∧
      hostStep .run t = .refused (.hostRefused .faulted) ∧
      ∀ words, hostStep (.load words) t = .refused (.hostRefused .faulted))

/-- R29, R192: a step leaves `out` as it was or appends one element: the register a PRN at `pc` names. -/
def Obligations.OutputIsAppendOnly : Prop :=
  ∀ (opc : Opc) (s t : State), stepWith opc s = .next t →
    t.out = s.out ∨
    ∃ (ra : Byte) (ha : ra.toNat < 8), s.mem.read s.pc.toNat = some opc.prn ∧
      s.mem.read (s.pc.toNat + 1) = some ra ∧ t.out = s.out ++ [s.x[ra.toNat]]

/-- R191: the two ways a running machine halts are told apart by `pc`. -/
def Obligations.HaltsAreToldApartByPc : Prop :=
  ∀ (opc : Opc) (s t : State), s.status = .running → s.pc.toNat ≤ 0x100 → stepWith opc s = .next t →
    (t.haltedAtHlt ↔ s.mem.read s.pc.toNat = some opc.hlt) ∧ (t.ranOffEnd ↔ s.pc.toNat = 0x100) ∧
    (t.ended ↔ t.status ≠ .running)

/-- R58: the stack read is never absent, and a step's out-of-bounds write is at -1, by PUSH or CALL with `x[7] = 0`
(derived in R58). -/
def Obligations.OutOfBoundsWriteOnlyAtMinusOne : Prop :=
  ∀ (opc : Opc) (s t : State) (f : FaultRecord), s.status = .running → s.fault = none →
    s.mem.read s.x[7].toNat ≠ none ∧
    (stepWith opc s = .next t → t.fault = some f → f.cause = .outOfBoundsWrite →
      f.info = -1 ∧ s.x[7] = 0 ∧
      (s.mem.read s.pc.toNat = some opc.push ∨ s.mem.read s.pc.toNat = some opc.call))

/-- R56 for HLT's opcode: where PUSH writes it into the next instruction's cell, the next step decodes it and halts the
machine at that cell, whatever the cell held before (derived in R56). -/
def Obligations.PushedHaltIsFetchedNext : Prop :=
  ∀ (opc : Opc) (s : State) (r : Byte) (hr : r.toNat < 7), opc.Valid → s.status = .running →
    CodeAt opc (.push r) s.pc.toNat s.mem → s.x[7].toNat = s.pc.toNat + 3 → s.x[r.toNat] = opc.hlt →
    ∃ t u, stepWith opc s = .next t ∧ stepWith opc t = .next u ∧ u.status = .halted ∧
      u.pc.toNat = s.pc.toNat + 2

/-! ### Memory -/

/-- R41: a read inside the 256 cells gives the cell, and one at `0x100` or above is absent. -/
def Obligations.ReadIsAbsentPastMemory : Prop :=
  ∀ (m : Memory) (a : Nat), (a ≤ 0xFF → m.read a = some (m.get a)) ∧ (0x100 ≤ a → m.read a = none)

/-- R42: a write inside the 256 cells changes that cell alone, and one outside raises `OutOfBoundsWrite`. -/
def Obligations.WriteStoresOrFaults : Prop :=
  ∀ (m : Memory) (addr : Int) (v : Byte),
    (0 ≤ addr → addr ≤ 0xFF → ∃ m', m.write addr v = .ok m' ∧ m'.read addr.toNat = some v ∧
      ∀ a, a ≠ addr.toNat → m'.read a = m.read a) ∧
    (addr < 0 ∨ 0x100 ≤ addr → m.write addr v = .error (.outOfBoundsWrite addr))

/-- The canonical form makes equal memories equal data: two of them that read the same everywhere are the same list. -/
def Obligations.CanonicalMemoriesAreEqual : Prop :=
  ∀ m m' : Memory, m.wf → m'.wf → (∀ a, m.read a = m'.read a) → m = m'

/-! ### Reset, the host, output -/

/-- R33: the state after Reset, and after Load of n words on it. Memory's `0x00` is D7; `status`, `fault` and `out`
are D9, D8, D10. -/
def Obligations.ResetAndLoadedState : Prop :=
  State.reset.x = #v[0, 0, 0, 0, 0, 0, 0, 0xF4] ∧ State.reset.pc = 0 ∧
  (∀ a, a ≤ 0xFF → State.reset.mem.read a = some 0x00) ∧
  State.reset.status = .idle ∧ State.reset.fault = none ∧ State.reset.out = [] ∧
  ∀ ws : List Byte, ws.length ≤ 256 →
    ∃ t, hostStep (.load (ws.map (fun w => (w.toNat : Int)))) State.reset = .next t ∧
      t = { State.reset with mem := t.mem } ∧
      ∀ a, a ≤ 0xFF → t.mem.read a = some (ws.getD a 0x00)

/-- R182: what Load of words does from `IDLE`: all of them written in order; or a fault at the first word outside 0 to
255, or at index 256, with the cells before it written (D13). -/
def Obligations.LoadWritesWordsInOrder : Prop :=
  ∀ (s : State) (ws : List Int), s.status = .idle →
    ((∀ w ∈ ws, 0 ≤ w ∧ w ≤ 255) → ws.length ≤ 256 →
      ∃ t, hostStep (.load ws) s = .next t ∧ t = { s with mem := t.mem } ∧
        (∀ i (hi : i < ws.length), t.mem.read i = some (BitVec.ofInt 8 ws[i])) ∧
        ∀ a, ws.length ≤ a → t.mem.read a = s.mem.read a) ∧
    (∀ i (hi : i < ws.length), i ≤ 256 → (∀ j (hj : j < i), 0 ≤ ws[j] ∧ ws[j] ≤ 255) → (ws[i] < 0 ∨ 255 < ws[i]) →
      ∃ t, hostStep (.load ws) s = .next t ∧
        t = { s with mem := t.mem, status := .faulted, fault := some ⟨.loadValueRange, 0, i⟩ } ∧
        (∀ j (hj : j < i), t.mem.read j = some (BitVec.ofInt 8 ws[j])) ∧
        ∀ a, i ≤ a → t.mem.read a = s.mem.read a) ∧
    (∀ hlen : 256 < ws.length, (∀ (j : Nat) (hj : j ≤ 256), 0 ≤ ws[j] ∧ ws[j] ≤ 255) →
      ∃ t, hostStep (.load ws) s = .next t ∧
        t = { s with mem := t.mem, status := .faulted, fault := some ⟨.outOfBoundsWrite, 0, 256⟩ } ∧
        ∀ (j : Nat) (hj : j < 256), t.mem.read j = some (BitVec.ofInt 8 ws[j]))

/-- R183: Run starts the loop, and a machine that was never loaded faults on its first fetch under the default `OPC`
(derived in R183; D1, D7, D9). -/
def Obligations.RunStartsTheLoop : Prop :=
  (∀ s : State, s.status = .idle → hostStep .run s = .next { s with status := .running }) ∧
  ∃ t, hostStep .run State.reset = .next t ∧
    step t = .next { State.reset with status := .faulted, fault := some ⟨.unsupportedOpcode, 0, 0⟩ }

/-- R190, the rows "observe": run status, fault record and output always; registers, `pc` and memory except in
`RUNNING` (D9). -/
def Obligations.HostObservesTheMachine : Prop :=
  ∀ s : State, observeRun s = (s.status, s.fault, s.out) ∧
    (s.status = .running → inspect s = none) ∧ (s.status ≠ .running → inspect s = some ⟨s.x, s.pc, s.mem⟩)

/-- R29: each element's numeral has only digits, no leading zero, and the element's value; the newline is no part of
it (D10). R29 gives no character code: that the digits are 48 to 57 is the model's choice (notes/assumptions/13.md,
DESIGN CHOICE). -/
def Obligations.NumeralIsUnsignedDecimal : Prop :=
  ∀ v : Byte, (numeral v.toNat).foldl (fun n c => 10 * n + (c.toNat - 48)) 0 = v.toNat ∧
    (∀ c ∈ numeral v.toNat, 48 ≤ c.toNat ∧ c.toNat ≤ 57) ∧
    ((numeral v.toNat).head? = some '0' → numeral v.toNat = ['0']) ∧ render v = numeral v.toNat ++ ['\n']

/-- The text determines the output: two output sequences with the same text are the same sequence. The text's
characters are the model's choice (notes/assumptions/13.md, DESIGN CHOICE). -/
def Obligations.OutputTextDeterminesOutput : Prop :=
  ∀ out out' : List Byte, outText out = outText out' → out = out'

/-- R151's codes: 1 to 7, in the table's order, so all distinct (D8). -/
def Obligations.FaultCodesAreOneToSeven : Prop :=
  [FaultCause.unsupportedOpcode, .outOfBoundsWrite, .absentOperand, .invalidRegister, .stackPointerRange,
    .returnAddressRange, .loadValueRange].map FaultCause.code = [1, 2, 3, 4, 5, 6, 7] ∧
  ∀ c c' : FaultCause, c.code = c'.code → c = c'
end

