-- ==== Sys2Proof/Laws/Memory.lean ====
section
/-! SUPPORT. Memory: what one read sees after one write, and the canonical form kept by every operation. -/

namespace Sys2Proof.Machine.Memory

theorem get_filter_ne {a b : Nat} (h : b ≠ a) (m : Memory) : get b (m.filter (fun c => c.1 ≠ a)) = get b m := by
  induction m with
  | nil => rfl
  | cons c m ih =>
    by_cases hc : c.1 = a
    · have hb : c.1 ≠ b := by omega
      simp only [List.filter_cons, hc, ne_eq, not_true, decide_false, Bool.false_eq_true, if_false, ih]
      simp [get, hb]
    · simp [hc, get, ← ih]

theorem get_unlisted {a : Nat} {m : Memory} (h : ∀ c ∈ m, c.1 ≠ a) : get a m = Config.memInit := by
  induction m with
  | nil => rfl
  | cons c m ih =>
    simp only [List.mem_cons, forall_eq_or_imp] at h
    simp [get, h.1, ih h.2]

theorem get_insertCell_same {a : Nat} (v : Byte) {m : Memory} (h : ∀ c ∈ m, c.1 ≠ a) :
    get a (insertCell a v m) = v := by
  induction m with
  | nil => by_cases hv : v = Config.memInit <;> simp [insertCell, get, hv]
  | cons c m ih =>
    simp only [List.mem_cons, forall_eq_or_imp] at h
    by_cases hv : v = Config.memInit
    · simp [insertCell, hv, get, h.1, get_unlisted h.2]
    · by_cases hc : a < c.1
      · simp [insertCell, hv, hc, get]
      · simp [insertCell, hv, hc, get, h.1, ih h.2]

theorem get_insertCell_ne {a b : Nat} (hb : b ≠ a) (v : Byte) (m : Memory) :
    get b (insertCell a v m) = get b m := by
  induction m with
  | nil => by_cases hv : v = Config.memInit <;> simp [insertCell, get, hv, hb.symm]
  | cons c m ih =>
    by_cases hv : v = Config.memInit
    · simp [insertCell, hv]
    · by_cases hc : a < c.1
      · simp [insertCell, hv, hc, get, hb.symm]
      · simp [insertCell, hv, hc, get, ih]

/-- A cell reads back what was put there, in every memory. -/
@[simp] theorem get_put_same (a : Nat) (v : Byte) (m : Memory) : get a (put a v m) = v :=
  get_insertCell_same v (by simp)

/-- Putting a cell leaves every other cell alone, in every memory. -/
theorem get_put_ne {a b : Nat} (h : b ≠ a) (v : Byte) (m : Memory) : get b (put a v m) = get b m := by
  rw [put, get_insertCell_ne h, get_filter_ne h]

/-- The two together, as one equation. -/
theorem get_put (a b : Nat) (v : Byte) (m : Memory) : get b (put a v m) = if b = a then v else get b m := by
  split
  · subst_vars; simp
  · exact get_put_ne ‹_› v m

theorem mem_insertCell {a : Nat} {v : Byte} {m : Memory} {c : Host.Cell} (h : c ∈ insertCell a v m) :
    (c = (a, v) ∧ v ≠ Config.memInit) ∨ c ∈ m := by
  induction m with
  | nil => by_cases hv : v = Config.memInit <;> simp_all [insertCell]
  | cons d m ih =>
    by_cases hv : v = Config.memInit
    · right; simpa [insertCell, hv] using h
    · by_cases hd : a < d.1
      · simp only [insertCell, hv, hd, if_false, if_true, List.mem_cons] at h
        rcases h with h | h | h <;> simp [h, hv]
      · simp only [insertCell, hv, hd, if_false, List.mem_cons] at h
        rcases h with h | h
        · simp [h]
        · rcases ih h with ⟨h, hv⟩ | h <;> simp [h, hv]

theorem insertCell_sorted {a : Nat} (v : Byte) {m : Memory} (hs : m.Pairwise (fun c d => c.1 < d.1))
    (ha : ∀ c ∈ m, c.1 ≠ a) : (insertCell a v m).Pairwise (fun c d => c.1 < d.1) := by
  induction m with
  | nil => by_cases hv : v = Config.memInit <;> simp [insertCell, hv]
  | cons d m ih =>
    by_cases hv : v = Config.memInit
    · simpa [insertCell, hv] using hs
    rw [List.pairwise_cons] at hs
    simp only [List.mem_cons, forall_eq_or_imp] at ha
    by_cases hd : a < d.1
    · rw [insertCell, if_neg hv, if_pos hd, List.pairwise_cons, List.forall_mem_cons]
      exact ⟨⟨hd, fun c hc => Nat.lt_trans hd (hs.1 c hc)⟩, List.pairwise_cons.mpr hs⟩
    · simp only [insertCell, hv, hd, if_false, List.pairwise_cons]
      refine ⟨fun c hc => ?_, ih hs.2 ha.2⟩
      rcases mem_insertCell hc with ⟨rfl, -⟩ | hc
      · have := ha.1; simp only; omega
      · exact hs.1 c hc

/-- `put` keeps the canonical form. -/
theorem put_wf {a : Nat} (ha : a < Config.memSize) (v : Byte) {m : Memory} (h : m.wf) : (put a v m).wf := by
  refine ⟨insertCell_sorted v (h.1.filter _) (by simp), fun c hc => ?_⟩
  rcases mem_insertCell hc with ⟨rfl, hv⟩ | hc
  · exact ⟨ha, hv⟩
  · exact h.2 c (List.mem_of_mem_filter hc)

/-- Everything `write` can do when it stores: the address was in bounds. -/
theorem write_ok {addr : Int} {v : Byte} {m m' : Memory} (h : m.write addr v = .ok m') :
    0 ≤ addr ∧ addr < Config.memSize ∧ m' = put addr.toNat v m := by
  unfold write at h
  split at h
  · cases h; simp_all
  · cases h

/-- Everything `write` can do when it raises. -/
theorem write_error {addr : Int} {v : Byte} {m : Memory} {e : FaultEvent} (h : m.write addr v = .error e) :
    ¬(0 ≤ addr ∧ addr < Config.memSize) ∧ e = .outOfBoundsWrite addr := by
  unfold write at h
  split at h
  · cases h
  · cases h; exact ⟨‹_›, rfl⟩

/-- `write` keeps the canonical form. -/
theorem write_wf {addr : Int} {v : Byte} {m m' : Memory} (hm : m.wf) (h : m.write addr v = .ok m') : m'.wf := by
  obtain ⟨h0, h1, rfl⟩ := write_ok h
  exact put_wf (by omega) v hm

/-- `storeCells` keeps the canonical form. -/
theorem storeCells_wf (a : Nat) (bs : List Byte) {m : Memory} (h : m.wf) : (storeCells a bs m).wf := by
  induction bs generalizing a m with
  | nil => exact h
  | cons b bs ih =>
    rw [storeCells]
    split
    · exact ih _ (put_wf ‹_› b h)
    · exact ih _ h

/-- A read inside the 256 cells is the cell; at and above `0x100` it is absent (R41). -/
theorem read_of_lt {a : Nat} (h : a < Config.memSize) (m : Memory) : m.read a = some (get a m) := by simp [read, h]

theorem read_of_ge {a : Nat} (h : Config.memSize ≤ a) (m : Memory) : m.read a = none := by
  simp [read, Nat.not_lt.mpr h]

theorem read_put {a b : Nat} (v : Byte) (m : Memory) (ha : a < Config.memSize) :
    (put a v m).read b = if b = a then some v else m.read b := by
  by_cases hb : b < Config.memSize <;> by_cases hab : b = a <;> simp_all [read, get_put]

end Sys2Proof.Machine.Memory
end

