-- ==== Sys2Proof/Laws/State.lean ====
section
/-! SUPPORT. One lemma per field per update of the state, and the register laws. -/

namespace Sys2Proof.Machine.State

@[simp] theorem setReg_x (i : RegIndex) (v : Byte) (s : State) : (s.setReg i v).x = s.x.set i v := rfl
@[simp] theorem setReg_pc (i : RegIndex) (v : Byte) (s : State) : (s.setReg i v).pc = s.pc := rfl
@[simp] theorem setReg_mem (i : RegIndex) (v : Byte) (s : State) : (s.setReg i v).mem = s.mem := rfl
@[simp] theorem setReg_status (i : RegIndex) (v : Byte) (s : State) : (s.setReg i v).status = s.status := rfl
@[simp] theorem setReg_fault (i : RegIndex) (v : Byte) (s : State) : (s.setReg i v).fault = s.fault := rfl
@[simp] theorem setReg_out (i : RegIndex) (v : Byte) (s : State) : (s.setReg i v).out = s.out := rfl

@[simp] theorem setPc_x (t : PcWord) (s : State) : (s.setPc t).x = s.x := rfl
@[simp] theorem setPc_pc (t : PcWord) (s : State) : (s.setPc t).pc = t := rfl
@[simp] theorem setPc_mem (t : PcWord) (s : State) : (s.setPc t).mem = s.mem := rfl
@[simp] theorem setPc_status (t : PcWord) (s : State) : (s.setPc t).status = s.status := rfl
@[simp] theorem setPc_fault (t : PcWord) (s : State) : (s.setPc t).fault = s.fault := rfl
@[simp] theorem setPc_out (t : PcWord) (s : State) : (s.setPc t).out = s.out := rfl

@[simp] theorem advance_x (n : Nat) (s : State) : (s.advance n).x = s.x := rfl
@[simp] theorem advance_pc (n : Nat) (s : State) : (s.advance n).pc = s.pc + BitVec.ofNat 9 n := rfl
@[simp] theorem advance_mem (n : Nat) (s : State) : (s.advance n).mem = s.mem := rfl
@[simp] theorem advance_status (n : Nat) (s : State) : (s.advance n).status = s.status := rfl
@[simp] theorem advance_fault (n : Nat) (s : State) : (s.advance n).fault = s.fault := rfl
@[simp] theorem advance_out (n : Nat) (s : State) : (s.advance n).out = s.out := rfl

@[simp] theorem halt_x (s : State) : s.halt.x = s.x := rfl
@[simp] theorem halt_pc (s : State) : s.halt.pc = s.pc := rfl
@[simp] theorem halt_mem (s : State) : s.halt.mem = s.mem := rfl
@[simp] theorem halt_status (s : State) : s.halt.status = .halted := rfl
@[simp] theorem halt_fault (s : State) : s.halt.fault = s.fault := rfl
@[simp] theorem halt_out (s : State) : s.halt.out = s.out := rfl

@[simp] theorem emit_x (v : Byte) (s : State) : (s.emit v).x = s.x := rfl
@[simp] theorem emit_pc (v : Byte) (s : State) : (s.emit v).pc = s.pc := rfl
@[simp] theorem emit_mem (v : Byte) (s : State) : (s.emit v).mem = s.mem := rfl
@[simp] theorem emit_status (v : Byte) (s : State) : (s.emit v).status = s.status := rfl
@[simp] theorem emit_fault (v : Byte) (s : State) : (s.emit v).fault = s.fault := rfl
@[simp] theorem emit_out (v : Byte) (s : State) : (s.emit v).out = s.out ++ [v] := rfl

@[simp] theorem raiseAt_x (p : PcWord) (e : FaultEvent) (s : State) : (raiseAt p e s).x = s.x := rfl
@[simp] theorem raiseAt_pc (p : PcWord) (e : FaultEvent) (s : State) : (raiseAt p e s).pc = s.pc := rfl
@[simp] theorem raiseAt_mem (p : PcWord) (e : FaultEvent) (s : State) : (raiseAt p e s).mem = s.mem := rfl
@[simp] theorem raiseAt_status (p : PcWord) (e : FaultEvent) (s : State) : (raiseAt p e s).status = .faulted := rfl
@[simp] theorem raiseAt_fault (p : PcWord) (e : FaultEvent) (s : State) : (raiseAt p e s).fault = some { cause := e.cause, fpc := p, info := e.info } := rfl
@[simp] theorem raiseAt_out (p : PcWord) (e : FaultEvent) (s : State) : (raiseAt p e s).out = s.out := rfl

@[simp] theorem raise_x (e : FaultEvent) (s : State) : (raise e s).x = s.x := rfl
@[simp] theorem raise_pc (e : FaultEvent) (s : State) : (raise e s).pc = s.pc := rfl
@[simp] theorem raise_mem (e : FaultEvent) (s : State) : (raise e s).mem = s.mem := rfl
@[simp] theorem raise_status (e : FaultEvent) (s : State) : (raise e s).status = .faulted := rfl
@[simp] theorem raise_fault (e : FaultEvent) (s : State) : (raise e s).fault = some { cause := e.cause, fpc := s.pc, info := e.info } := rfl
@[simp] theorem raise_out (e : FaultEvent) (s : State) : (raise e s).out = s.out := rfl

/-- A register reads back what was written to it. -/
@[simp] theorem reg_setReg_same (i : RegIndex) (v : Byte) (s : State) : (s.setReg i v).reg i = v := by
  simp [reg, setReg]

/-- Writing a register leaves the others alone. -/
theorem reg_setReg_ne {i j : RegIndex} (h : i ≠ j) (v : Byte) (s : State) : (s.setReg i v).reg j = s.reg j := by
  simp [reg, setReg, Fin.val_ne_of_ne h]

/-- Writing the decremented stack pointer, as one equation over the index read. -/
theorem reg_setReg (i j : RegIndex) (v : Byte) (s : State) :
    (s.setReg i v).reg j = if i = j then v else s.reg j := by
  split
  · subst_vars; simp
  · exact reg_setReg_ne ‹_› v s

end Sys2Proof.Machine.State
end

