-- ==== Sys2Proof/Laws/Ops.lean ====
section
/-! SUPPORT. For each shared operation, once, everything it can do. -/

namespace Sys2Proof.Machine

/-! ### Settling a handler -/

@[simp] theorem settle_ok (s s' : State) : settle s (.ok s') = .next s' := rfl

@[simp] theorem settle_error (s : State) (e : FaultEvent) : settle s (.error e) = .next (raise e s) := rfl

/-- A handler's outcome is always a next state: its own last state, or fault entry from the state before. -/
theorem settle_cases (s : State) (r : Except FaultEvent State) :
    (∃ s', r = .ok s' ∧ settle s r = .next s') ∨ (∃ e, r = .error e ∧ settle s r = .next (raise e s)) := by
  cases r with
  | ok s' => exact .inl ⟨s', rfl, rfl⟩
  | error e => exact .inr ⟨e, rfl, rfl⟩

/-- Peel one operation off a handler that completed. -/
theorem except_bind_ok {α β : Type} {r : Except FaultEvent α} {f : α → Except FaultEvent β} {b : β}
    (h : (r >>= f) = .ok b) : ∃ a, r = .ok a ∧ f a = .ok b := by
  cases r with
  | ok a => exact ⟨a, rfl, h⟩
  | error e => cases h

/-- Peel one operation off a handler that raised: it raised itself, or what follows it did. -/
theorem except_bind_error {α β : Type} {r : Except FaultEvent α} {f : α → Except FaultEvent β} {e : FaultEvent}
    (h : (r >>= f) = .error e) : r = .error e ∨ ∃ a, r = .ok a ∧ f a = .error e := by
  cases r with
  | ok a => exact .inr ⟨a, rfl, h⟩
  | error e' => left; simpa [bind, Except.bind] using h

/-! ### Operands -/

theorem operandPresent_ok {k : Nat} {s : State} (h : s.pc.toNat + k < Config.memSize) :
    operandPresent k s = .ok () := by
  simp [operandPresent, Memory.read_of_lt h]

theorem operandPresent_absent {k : Nat} {s : State} (h : Config.memSize ≤ s.pc.toNat + k) :
    operandPresent k s = .error (.absentOperand k) := by
  simp [operandPresent, Memory.read_of_ge h]

theorem operandPresent_cases (k : Nat) (s : State) :
    (operandPresent k s = .ok () ∧ s.pc.toNat + k < Config.memSize) ∨
      (operandPresent k s = .error (.absentOperand k) ∧ Config.memSize ≤ s.pc.toNat + k) := by
  by_cases h : s.pc.toNat + k < Config.memSize
  · exact .inl ⟨operandPresent_ok h, h⟩
  · exact .inr ⟨operandPresent_absent (Nat.not_lt.mp h), Nat.not_lt.mp h⟩

theorem regOperand_ok {r : Byte} (h : ValidReg r) : regOperand r = .ok ⟨r.toNat, h⟩ := by simp [regOperand, h]

theorem regOperand_invalid {r : Byte} (h : ¬ValidReg r) : regOperand r = .error (.invalidRegister r) := by
  simp [regOperand, h]

theorem regOperand_eq_ok {r : Byte} {i : RegIndex} (h : regOperand r = .ok i) : i.val = r.toNat := by
  unfold regOperand at h
  split at h
  · cases h; rfl
  · cases h

theorem operandsF1_ok {a : Byte} {s : State} (hp : s.pc.toNat + 1 < Config.memSize) (ha : ValidReg a) :
    operandsF1 a s = .ok ⟨a.toNat, ha⟩ := by
  simp [operandsF1, operandPresent_ok hp, regOperand_ok ha, bind, Except.bind]

theorem operandsF2I_ok {a b : Byte} {s : State} (hp : s.pc.toNat + 2 < Config.memSize) (ha : ValidReg a) :
    operandsF2I a b s = .ok (⟨a.toNat, ha⟩, b) := by
  simp [operandsF2I, operandPresent_ok hp, operandPresent_ok (k := 1) (Nat.lt_of_succ_lt hp), regOperand_ok ha,
    bind, Except.bind]

theorem operandsF2R_ok {a b : Byte} {s : State} (hp : s.pc.toNat + 2 < Config.memSize) (ha : ValidReg a)
    (hb : ValidReg b) : operandsF2R a b s = .ok (⟨a.toNat, ha⟩, ⟨b.toNat, hb⟩) := by
  simp [operandsF2R, operandPresent_ok hp, operandPresent_ok (k := 1) (Nat.lt_of_succ_lt hp), regOperand_ok ha,
    regOperand_ok hb, bind, Except.bind]

/-! ### Arithmetic -/

theorem aluAdd_eq (u v : Byte) : aluAdd u v = u + v := by
  apply BitVec.eq_of_toNat_eq; simp [aluAdd, BitVec.toNat_add]

theorem aluMul_eq (u v : Byte) : aluMul u v = u * v := by
  apply BitVec.eq_of_toNat_eq; simp [aluMul, BitVec.toNat_mul]

theorem spBelow_cases (v : Byte) :
    (v = 0 ∧ spBelow v = .error (.outOfBoundsWrite (-1))) ∨
      (1 ≤ v.toNat ∧ spBelow v = .ok (v - 1) ∧ (v - 1).toNat = v.toNat - 1) := by
  by_cases h : v = 0
  · exact .inl ⟨h, by simp [spBelow, h]⟩
  · have : v.toNat ≠ 0 := fun hz => h (BitVec.eq_of_toNat_eq (by simpa using hz))
    exact .inr ⟨by omega, if_neg h, by rw [BitVec.toNat_sub]; have := v.isLt; simp; omega⟩

theorem spAbove_cases (v : Byte) :
    (v = 0xFF ∧ spAbove v = .error (.stackPointerRange 0xFF)) ∨
      (v.toNat < 0xFF ∧ spAbove v = .ok (v + 1) ∧ (v + 1).toNat = v.toNat + 1) := by
  by_cases h : v = 0xFF
  · exact .inl ⟨h, by simp [spAbove, h]⟩
  · have h1 : v.toNat ≠ 0xFF := fun hz => h (BitVec.eq_of_toNat_eq (by simpa using hz))
    have := v.isLt
    exact .inr ⟨by omega, if_neg h, by rw [BitVec.toNat_add]; simp; omega⟩

theorem returnAddress_cases (pc : PcWord) :
    (0xFE ≤ pc.toNat ∧ returnAddress pc = .error (.returnAddressRange (pc.toNat + 2))) ∨
      (pc.toNat ≤ 0xFD ∧ returnAddress pc = .ok (BitVec.ofNat 8 (pc.toNat + 2))) := by
  by_cases h : pc.toNat + 2 > 0xFF
  · exact .inl ⟨by omega, by simp [returnAddress, h]⟩
  · exact .inr ⟨by omega, by simp [returnAddress, h]⟩

@[simp] theorem target_toNat (b : Byte) : (target b).toNat = b.toNat := by
  have := b.isLt; simp [target]; omega

/-! ### The stack -/

theorem decSp_cases (s : State) :
    (s.reg sp = 0 ∧ decSp s = .error (.outOfBoundsWrite (-1))) ∨
      (1 ≤ (s.reg sp).toNat ∧ decSp s = .ok (s.setReg sp (s.reg sp - 1)) ∧
        (s.reg sp - 1).toNat = (s.reg sp).toNat - 1) := by
  rcases spBelow_cases (s.reg sp) with ⟨h0, h⟩ | ⟨h1, h, hn⟩
  · exact .inl ⟨h0, by simp [decSp, h, bind, Except.bind]⟩
  · exact .inr ⟨h1, by simp [decSp, h, bind, Except.bind], hn⟩

/-- The write at the stack pointer is always in bounds: `x[7]` is a byte (R58). -/
theorem writeTop_eq (v : Byte) (s : State) :
    writeTop v s = .ok { s with mem := s.mem.put (stackAddress s) v } := by
  have h : stackAddress s < 256 := (s.reg sp).isLt
  have h' : (0 : Int) ≤ (stackAddress s : Int) ∧ (stackAddress s : Int) < (Config.memSize : Nat) := by
    simp [Config.memSize]; omega
  simp [writeTop, State.memWrite, Memory.write, h']

/-- A data read is never absent: `MemRead` at a byte address is the cell (R58). -/
theorem read_cell (a : Byte) (s : State) : s.mem.read a.toNat = some (s.cell a) :=
  Memory.read_of_lt (a.isLt) _

end Sys2Proof.Machine
end

