-- ==== Sys2Proof/Laws/Exec.lean ====
section
/-! SUPPORT. What the operand forms and the nine meanings can do, said once: `exec_cases` is the inversion lemma the frames,
the invariant and the whole-machine rules are proved from. -/

namespace Sys2Proof.Machine

/-! ### Running a handler -/

@[simp] theorem ok_bind {α β : Type} (a : α) (f : α → Except FaultEvent β) : (Except.ok a >>= f) = f a := rfl

@[simp] theorem error_bind {α β : Type} (e : FaultEvent) (f : α → Except FaultEvent β) :
    (Except.error e >>= f) = .error e := rfl

theorem settle_ok_next {s s' t : State} (h : settle s (.ok s') = .next t) : t = s' := by simpa using h.symm

theorem settle_error_next {s t : State} {e : FaultEvent} (h : settle s (.error e) = .next t) : t = raise e s := by
  simpa using h.symm

/-! ### Operand forms -/

/-- Format F1: one register operand, or the two ways it fails (R96). -/
theorem operandsF1_cases (a : Byte) (s : State) :
    (s.pc.toNat ≤ 0xFE ∧ ∃ ha : a.toNat < 8, operandsF1 a s = .ok ⟨a.toNat, ha⟩) ∨
    (∃ e, operandsF1 a s = .error e ∧
      ((e = .absentOperand 1 ∧ 256 ≤ s.pc.toNat + 1) ∨ (e = .invalidRegister a ∧ 8 ≤ a.toNat))) := by
  rcases operandPresent_cases 1 s with ⟨h, hp⟩ | ⟨h, hp⟩ <;> simp only [Config.memSize] at hp
  · by_cases ha : a.toNat < 8
    · exact .inl ⟨by omega, ha, by simp [operandsF1, h, regOperand_ok ha]⟩
    · exact .inr ⟨_, by simp [operandsF1, h, regOperand_invalid ha], .inr ⟨rfl, by omega⟩⟩
  · exact .inr ⟨_, by simp [operandsF1, h], .inl ⟨rfl, hp⟩⟩

/-- Format F2I: a register and an immediate, or the ways it fails (R96). -/
theorem operandsF2I_cases (a b : Byte) (s : State) :
    (s.pc.toNat ≤ 0xFD ∧ ∃ ha : a.toNat < 8, operandsF2I a b s = .ok (⟨a.toNat, ha⟩, b)) ∨
    (∃ e, operandsF2I a b s = .error e ∧
      ((∃ k, e = .absentOperand k ∧ (k = 1 ∨ k = 2) ∧ 256 ≤ s.pc.toNat + k) ∨
        (e = .invalidRegister a ∧ 8 ≤ a.toNat))) := by
  rcases operandPresent_cases 1 s with ⟨h, hp⟩ | ⟨h, hp⟩ <;> simp only [Config.memSize] at hp
  · rcases operandPresent_cases 2 s with ⟨h2, hp2⟩ | ⟨h2, hp2⟩ <;> simp only [Config.memSize] at hp2
    · by_cases ha : a.toNat < 8
      · exact .inl ⟨by omega, ha, by simp [operandsF2I, h, h2, regOperand_ok ha]⟩
      · exact .inr ⟨_, by simp [operandsF2I, h, h2, regOperand_invalid ha], .inr ⟨rfl, by omega⟩⟩
    · exact .inr ⟨_, by simp [operandsF2I, h, h2], .inl ⟨_, rfl, by simp, hp2⟩⟩
  · exact .inr ⟨_, by simp [operandsF2I, h], .inl ⟨_, rfl, by simp, hp⟩⟩

/-- Format F2R: two registers, or the ways it fails, a reported before b (R96). -/
theorem operandsF2R_cases (a b : Byte) (s : State) :
    (s.pc.toNat ≤ 0xFD ∧ ∃ (ha : a.toNat < 8) (hb : b.toNat < 8),
      operandsF2R a b s = .ok (⟨a.toNat, ha⟩, ⟨b.toNat, hb⟩)) ∨
    (∃ e, operandsF2R a b s = .error e ∧
      ((∃ k, e = .absentOperand k ∧ (k = 1 ∨ k = 2) ∧ 256 ≤ s.pc.toNat + k) ∨
        (e = .invalidRegister a ∧ 8 ≤ a.toNat) ∨ (e = .invalidRegister b ∧ a.toNat < 8 ∧ 8 ≤ b.toNat))) := by
  rcases operandPresent_cases 1 s with ⟨h, hp⟩ | ⟨h, hp⟩ <;> simp only [Config.memSize] at hp
  · rcases operandPresent_cases 2 s with ⟨h2, hp2⟩ | ⟨h2, hp2⟩ <;> simp only [Config.memSize] at hp2
    · by_cases ha : a.toNat < 8
      · by_cases hb : b.toNat < 8
        · exact .inl ⟨by omega, ha, hb, by simp [operandsF2R, h, h2, regOperand_ok ha, regOperand_ok hb]⟩
        · exact .inr ⟨_, by simp [operandsF2R, h, h2, regOperand_ok ha, regOperand_invalid hb],
            .inr (.inr ⟨rfl, ha, by omega⟩)⟩
      · exact .inr ⟨_, by simp [operandsF2R, h, h2, regOperand_invalid ha], .inr (.inl ⟨rfl, by omega⟩)⟩
    · exact .inr ⟨_, by simp [operandsF2R, h, h2], .inl ⟨_, rfl, by simp, hp2⟩⟩
  · exact .inr ⟨_, by simp [operandsF2R, h], .inl ⟨_, rfl, by simp, hp⟩⟩

/-! ### The stack pointer as register 7 -/

theorem reg_sp (s : State) : s.reg sp = s.x[7] := rfl

/-- A named register read after register 7 was written: the new value when the name is `R7`. -/
theorem reg_setReg_sp {s : State} {v ra : Byte} (ha : ra.toNat < 8) :
    (s.setReg sp v).reg ⟨ra.toNat, ha⟩ = if ra = 7 then v else s.x[ra.toNat] := by
  rw [State.reg_setReg]
  by_cases h : ra = 7
  · subst h; simp [sp]
  · rw [if_neg, if_neg h]
    · rfl
    · intro hh
      exact h (BitVec.eq_of_toNat_eq (by simpa [sp] using (congrArg Fin.val hh).symm))

@[simp] theorem stackAddress_setReg (s : State) (v : Byte) : stackAddress (s.setReg sp v) = v.toNat := by
  simp [stackAddress]

/-! ### Every meaning, inverted -/

/-- The next state of an instruction's own effect, with what it needed: its operands present and valid, and its stack
pointer in range. -/
def Completes (s t : State) : Instr → Prop
  | .hlt => t = s.halt
  | .ldi ra imm => s.pc.toNat ≤ 0xFD ∧ ∃ ha : ra.toNat < 8, t = (s.setReg ⟨ra.toNat, ha⟩ imm).advance 3
  | .prn ra => s.pc.toNat ≤ 0xFE ∧ ∃ ha : ra.toNat < 8, t = (s.emit (s.reg ⟨ra.toNat, ha⟩)).advance 2
  | .push ra => s.pc.toNat ≤ 0xFE ∧ ∃ ha : ra.toNat < 8, 1 ≤ s.x[7].toNat ∧
      t = ({ s.setReg sp (s.x[7] - 1) with
        mem := s.mem.put (s.x[7].toNat - 1) (if ra = 7 then s.x[7] - 1 else s.x[ra.toNat]) } : State).advance 2
  | .pop ra => s.pc.toNat ≤ 0xFE ∧ ∃ ha : ra.toNat < 8, ∃ p, p ≠ 0xFF ∧
      p = (if ra = 7 then s.cell s.x[7] else s.x[7]) ∧
      t = ((s.setReg ⟨ra.toNat, ha⟩ (s.cell s.x[7])).setReg sp (p + 1)).advance 2
  | .call ra => s.pc.toNat ≤ 0xFD ∧ ∃ ha : ra.toNat < 8, 1 ≤ s.x[7].toNat ∧
      t = ({ s.setReg sp (s.x[7] - 1) with
        mem := s.mem.put (s.x[7].toNat - 1) (BitVec.ofNat 8 (s.pc.toNat + 2)) } : State).setPc
          (target (if ra = 7 then s.x[7] - 1 else s.x[ra.toNat]))
  | .ret => s.x[7] ≠ 0xFF ∧ t = (s.setReg sp (s.x[7] + 1)).setPc (target (s.cell s.x[7]))
  | .add ra rb => s.pc.toNat ≤ 0xFD ∧ ∃ (ha : ra.toNat < 8) (_ : rb.toNat < 8),
      t = (s.setReg ⟨ra.toNat, ha⟩ (aluAdd s.x[ra.toNat] s.x[rb.toNat])).advance 3
  | .mul ra rb => s.pc.toNat ≤ 0xFD ∧ ∃ (ha : ra.toNat < 8) (_ : rb.toNat < 8),
      t = (s.setReg ⟨ra.toNat, ha⟩ (aluMul s.x[ra.toNat] s.x[rb.toNat])).advance 3

/-- What an instruction can raise, and when (R151's second table). -/
def MayRaise (s : State) (i : Instr) : FaultEvent → Prop
  | .unsupportedOpcode _ => False
  | .outOfBoundsWrite a => a = -1 ∧ s.x[7] = 0 ∧ ((∃ r, i = .push r) ∨ ∃ r, i = .call r)
  | .absentOperand k => 1 ≤ k ∧ k ≤ i.operandCount ∧ 256 ≤ s.pc.toNat + k
  | .invalidRegister r => 8 ≤ r.toNat ∧ r ∈ i.regOperands
  | .stackPointerRange v => v = 0xFF ∧ ((∃ r, i = .pop r) ∨ i = .ret)
  | .returnAddressRange n => n = 256 ∧ s.pc.toNat = 0xFE ∧ ∃ r, i = .call r
  | .loadValueRange _ => False

theorem toNat_pos {v : Byte} (h : v ≠ 0) : 1 ≤ v.toNat :=
  Nat.pos_of_ne_zero fun hz => h (BitVec.eq_of_toNat_eq (by simpa using hz))

theorem mayRaise_F1 {s : State} {i : Instr} {a : Byte} {e : FaultEvent} (hi : 1 ≤ i.operandCount)
    (ha : a ∈ i.regOperands)
    (h : (e = .absentOperand 1 ∧ 256 ≤ s.pc.toNat + 1) ∨ (e = .invalidRegister a ∧ 8 ≤ a.toNat)) : MayRaise s i e := by
  rcases h with ⟨rfl, hp⟩ | ⟨rfl, h8⟩
  · exact ⟨Nat.le_refl _, hi, hp⟩
  · exact ⟨h8, ha⟩

/-- Everything `exec` can do when it answers a next state: fault entry, or the instruction's own effect. -/
theorem exec_cases {i : Instr} {s t : State} (h : exec i s = .next t) :
    (∃ e, t = raise e s ∧ MayRaise s i e) ∨ Completes s t i := by
  cases i with
  | hlt => exact .inr (settle_ok_next (s := s) h)
  | ldi ra imm =>
    simp only [exec, execLdi] at h
    rcases operandsF2I_cases ra imm s with ⟨hp, ha, ho⟩ | ⟨e, ho, he⟩ <;> simp only [ho, ok_bind, error_bind] at h
    · exact .inr ⟨hp, ha, settle_ok_next h⟩
    · refine .inl ⟨e, settle_error_next h, ?_⟩
      rcases he with ⟨k, rfl, hk, hpk⟩ | ⟨rfl, h8⟩
      · exact ⟨by omega, by simp [Instr.operandCount, Instr.operands]; omega, hpk⟩
      · exact ⟨h8, by simp [Instr.regOperands]⟩
  | prn ra =>
    simp only [exec, execPrn] at h
    rcases operandsF1_cases ra s with ⟨hp, ha, ho⟩ | ⟨e, ho, he⟩ <;> simp only [ho, ok_bind, error_bind] at h
    · exact .inr ⟨hp, ha, settle_ok_next h⟩
    · exact .inl ⟨e, settle_error_next h, mayRaise_F1 (Nat.le_refl 1) (List.mem_singleton.mpr rfl) he⟩
  | push ra =>
    simp only [exec, execPush] at h
    rcases operandsF1_cases ra s with ⟨hp, ha, ho⟩ | ⟨e, ho, he⟩ <;> simp only [ho, ok_bind, error_bind] at h
    · rcases decSp_cases s with ⟨h0, hd⟩ | ⟨h1, hd, hn⟩ <;> simp only [hd, ok_bind, error_bind] at h
      · exact .inl ⟨_, settle_error_next h, rfl, h0, .inl ⟨_, rfl⟩⟩
      · simp only [writeTop_eq, ok_bind, stackAddress_setReg, hn, reg_setReg_sp ha] at h
        exact .inr ⟨hp, ha, h1, settle_ok_next h⟩
    · exact .inl ⟨e, settle_error_next h, mayRaise_F1 (Nat.le_refl 1) (List.mem_singleton.mpr rfl) he⟩
  | pop ra =>
    simp only [exec, execPop] at h
    rcases operandsF1_cases ra s with ⟨hp, ha, ho⟩ | ⟨e, ho, he⟩ <;> simp only [ho, ok_bind, error_bind] at h
    · have hif : (if (⟨ra.toNat, ha⟩ : RegIndex) = sp then s.cell (s.reg sp) else s.reg sp) =
          if ra = 7 then s.cell s.x[7] else s.x[7] := by
        by_cases h7 : ra = 7
        · subst h7; rfl
        · rw [if_neg h7, if_neg]
          · rfl
          · intro hh
            exact h7 (BitVec.eq_of_toNat_eq (by simpa [sp] using congrArg Fin.val hh))
      rw [hif] at h
      rcases spAbove_cases (if ra = 7 then s.cell s.x[7] else s.x[7]) with ⟨_, hs⟩ | ⟨hlt, hs, _⟩ <;>
        simp only [hs, ok_bind, error_bind] at h
      · exact .inl ⟨_, settle_error_next h, rfl, .inl ⟨_, rfl⟩⟩
      · exact .inr ⟨hp, ha, _, fun hff => by rw [hff] at hlt; simp at hlt, rfl, settle_ok_next h⟩
    · exact .inl ⟨e, settle_error_next h, mayRaise_F1 (Nat.le_refl 1) (List.mem_singleton.mpr rfl) he⟩
  | call ra =>
    simp only [exec, execCall] at h
    rcases operandsF1_cases ra s with ⟨hp, ha, ho⟩ | ⟨e, ho, he⟩ <;> simp only [ho, ok_bind, error_bind] at h
    · rcases returnAddress_cases s.pc with ⟨hr, hrr⟩ | ⟨hr, hrr⟩ <;> simp only [hrr, ok_bind, error_bind] at h
      · exact .inl ⟨_, settle_error_next h, by omega, by omega, _, rfl⟩
      · rcases decSp_cases s with ⟨h0, hd⟩ | ⟨h1, hd, hn⟩ <;> simp only [hd, ok_bind, error_bind] at h
        · exact .inl ⟨_, settle_error_next h, rfl, h0, .inr ⟨_, rfl⟩⟩
        · simp only [writeTop_eq, ok_bind, stackAddress_setReg, hn] at h
          refine .inr ⟨hr, ha, h1, ?_⟩
          rw [settle_ok_next h, ← reg_setReg_sp (s := s) ha]
          rfl
    · exact .inl ⟨e, settle_error_next h, mayRaise_F1 (Nat.le_refl 1) (List.mem_singleton.mpr rfl) he⟩
  | ret =>
    simp only [exec, execRet, reg_sp] at h
    rcases spAbove_cases s.x[7] with ⟨_, hs⟩ | ⟨hlt, hs, _⟩ <;> simp only [hs, ok_bind, error_bind] at h
    · exact .inl ⟨_, settle_error_next h, rfl, .inr rfl⟩
    · exact .inr ⟨fun hff => by rw [hff] at hlt; simp at hlt, settle_ok_next h⟩
  | add ra rb =>
    simp only [exec, execAdd, aluTwoReg] at h
    rcases operandsF2R_cases ra rb s with ⟨hp, ha, hb, ho⟩ | ⟨e, ho, he⟩ <;> simp only [ho, ok_bind, error_bind] at h
    · exact .inr ⟨hp, ha, hb, settle_ok_next h⟩
    · refine .inl ⟨e, settle_error_next h, ?_⟩
      rcases he with ⟨k, rfl, hk, hpk⟩ | ⟨rfl, h8⟩ | ⟨rfl, _, h8⟩
      · exact ⟨by omega, by simp [Instr.operandCount, Instr.operands]; omega, hpk⟩
      · exact ⟨h8, by simp [Instr.regOperands]⟩
      · exact ⟨h8, by simp [Instr.regOperands]⟩
  | mul ra rb =>
    simp only [exec, execMul, aluTwoReg] at h
    rcases operandsF2R_cases ra rb s with ⟨hp, ha, hb, ho⟩ | ⟨e, ho, he⟩ <;> simp only [ho, ok_bind, error_bind] at h
    · exact .inr ⟨hp, ha, hb, settle_ok_next h⟩
    · refine .inl ⟨e, settle_error_next h, ?_⟩
      rcases he with ⟨k, rfl, hk, hpk⟩ | ⟨rfl, h8⟩ | ⟨rfl, _, h8⟩
      · exact ⟨by omega, by simp [Instr.operandCount, Instr.operands]; omega, hpk⟩
      · exact ⟨h8, by simp [Instr.regOperands]⟩
      · exact ⟨h8, by simp [Instr.regOperands]⟩

end Sys2Proof.Machine
end

