-- ==== Sys2Proof/Laws/Host.lean ====
section
/-! SUPPORT. What one word of a load can do, and a load's first unloadable word. -/

namespace Sys2Proof.Machine

/-- Everything loading one word can do (R43, R182). -/
theorem loadWord_cases (i : Nat) (w : Int) (s : State) :
    (0 ≤ w ∧ w ≤ 255 ∧ i < Config.memSize ∧
      loadWord i w s = .ok { s with mem := s.mem.put i (BitVec.ofInt 8 w) }) ∨
    (0 ≤ w ∧ w ≤ 255 ∧ Config.memSize ≤ i ∧ loadWord i w s = .error (.outOfBoundsWrite i)) ∨
    ((w < 0 ∨ 255 < w) ∧ loadWord i w s = .error (.loadValueRange i)) := by
  by_cases hw : w < 0 ∨ w > 255
  · exact .inr (.inr ⟨hw, by rw [loadWord, if_pos hw]⟩)
  · by_cases hi : i < Config.memSize
    · refine .inl ⟨by omega, by omega, hi, ?_⟩
      rw [loadWord, if_neg hw, State.memWrite, Memory.write, if_pos ⟨by omega, by omega⟩]
      rfl
    · refine .inr (.inl ⟨by omega, by omega, by omega, ?_⟩)
      rw [loadWord, if_neg hw, State.memWrite, Memory.write, if_neg (by omega)]

/-- A load whose first word can be loaded goes on with the rest. -/
theorem loadFrom_cons_ok {i : Nat} {w : Int} {ws : List Int} {s s' : State} (h : loadWord i w s = .ok s') :
    loadFrom i (w :: ws) s = loadFrom (i + 1) ws s' := by rw [loadFrom, h]

/-- A load whose first word cannot be loaded ends there. -/
theorem loadFrom_cons_error {i : Nat} {w : Int} {ws : List Int} {s : State} {e : FaultEvent}
    (h : loadWord i w s = .error e) : loadFrom i (w :: ws) s = loadFault e s := by rw [loadFrom, h]

end Sys2Proof.Machine
end

