-- ==== Sys2Proof/Laws/PerInstr.lean ====
section
/-! SUPPORT. A statement about every instruction as syntax, one lemma per constructor: an encoding is the opcode byte
alone in the first cell, then one cell per operand (30_encoding.md R70, R75, R79). -/

namespace Sys2Proof.Laws.EncodedCells

/-- The encoding's first cell is the opcode, the rest are the operands in order, and it has `width` cells; a register
operand is one of the operand cells. -/
def Statement (i : Instr) : Prop :=
  ∀ opc : Opc, (encode opc i).head? = some (opcodeOf opc i) ∧ (encode opc i).tail = i.operands ∧
    (encode opc i).length = i.width ∧ i.width ≤ 3 ∧ ∀ r ∈ i.regOperands, r ∈ i.operands

theorem hlt : Statement .hlt := fun _ => by simp [encode, Instr.operands, Instr.width, Instr.operandCount, Instr.regOperands]

theorem ldi (ra imm : Byte) : Statement (.ldi ra imm) := fun _ => by simp [encode, Instr.operands, Instr.width, Instr.operandCount, Instr.regOperands]

theorem prn (ra : Byte) : Statement (.prn ra) := fun _ => by simp [encode, Instr.operands, Instr.width, Instr.operandCount, Instr.regOperands]

theorem push (ra : Byte) : Statement (.push ra) := fun _ => by simp [encode, Instr.operands, Instr.width, Instr.operandCount, Instr.regOperands]

theorem pop (ra : Byte) : Statement (.pop ra) := fun _ => by simp [encode, Instr.operands, Instr.width, Instr.operandCount, Instr.regOperands]

theorem call (ra : Byte) : Statement (.call ra) := fun _ => by simp [encode, Instr.operands, Instr.width, Instr.operandCount, Instr.regOperands]

theorem ret : Statement .ret := fun _ => by simp [encode, Instr.operands, Instr.width, Instr.operandCount, Instr.regOperands]

theorem add (ra rb : Byte) : Statement (.add ra rb) := fun _ => by simp [encode, Instr.operands, Instr.width, Instr.operandCount, Instr.regOperands]

theorem mul (ra rb : Byte) : Statement (.mul ra rb) := fun _ => by simp [encode, Instr.operands, Instr.width, Instr.operandCount, Instr.regOperands]

end Sys2Proof.Laws.EncodedCells
end

