-- ==== Sys2Proof/Laws/Step.lean ====
section
/-! SUPPORT. The cells fetched, the dispatch table, and everything a step can do. -/

namespace Sys2Proof.Machine

/-- The fetched cells, by which of the three reads are absent (R94). -/
theorem fetchCells_eq (s : State) : fetchCells s =
    match s.mem.read s.pc.toNat, s.mem.read (s.pc.toNat + 1), s.mem.read (s.pc.toNat + 2) with
    | none, _, _ => []
    | some op, none, _ => [op]
    | some op, some a, none => [op, a]
    | some op, some a, some b => [op, a, b] := by
  unfold fetchCells
  by_cases h0 : s.pc.toNat < 256 <;> by_cases h1 : s.pc.toNat + 1 < 256 <;> by_cases h2 : s.pc.toNat + 2 < 256 <;>
    first
    | omega
    | simp [Memory.read, Config.memSize, h0, h1, h2]

/-- No handler and not HLT: the byte is none of the nine (R76, R80). -/
theorem dispatch_none_iff (opc : Opc) (op : Byte) :
    (op ≠ opc.hlt ∧ dispatch opc op = none) ↔ op ∉ opc.toList := by
  unfold dispatch Opc.toList
  constructor
  · rintro ⟨h1, h⟩
    split_ifs at h
    simp_all
  · intro h
    simp only [List.mem_cons, List.not_mem_nil, or_false, not_or] at h
    simp [h]

/-- Everything taking a handler's operands can do. -/
theorem takeOperands_cases (h : Handler) (cells : List Byte) :
    (∃ i rest, takeOperands h cells = .ok (i, rest)) ∨
    (1 ≤ h.operandCount ∧ cells = [] ∧ takeOperands h cells = .error (.absentOperand 1)) ∨
    (h.operandCount = 2 ∧ (∃ a, cells = [a]) ∧ takeOperands h cells = .error (.absentOperand 2)) := by
  rcases cells with _ | ⟨a, _ | ⟨b, cells⟩⟩ <;> cases h <;> simp [takeOperands, takeOne, takeTwo, Handler.operandCount]

/-- Everything `stepWith` can do when it answers a next state: the machine was running, and either decoding rejected, or
an instruction was decoded and its meaning answered. -/
theorem stepWith_cases {opc : Opc} {s t : State} (h : stepWith opc s = .next t) :
    s.status = .running ∧
    ((∃ e, decode opc (fetchCells s) = .error e ∧ t = rejectFetch e s) ∨
      ∃ i rest, decode opc (fetchCells s) = .ok (i, rest) ∧ exec i s = .next t) := by
  unfold stepWith at h
  cases hs : s.status <;> simp only [hs] at h
  case running =>
    refine ⟨rfl, ?_⟩
    cases hd : decode opc (fetchCells s) with
    | error e => rw [hd] at h; exact .inl ⟨e, rfl, (Host.Outcome.next.inj h).symm⟩
    | ok r => rw [hd] at h; exact .inr ⟨r.1, r.2, rfl, h⟩
  all_goals cases h

/-- Everything decoding can reject, with what it says of the cells (R92, R95, R96). -/
theorem decode_error {opc : Opc} {cells : List Byte} {e : DecodeError} (h : decode opc cells = .error e) :
    (cells = [] ∧ e = .absentOpcode) ∨
    (∃ op rest, cells = op :: rest ∧ op ∉ opc.toList ∧ e = .unsupportedOpcode op) ∨
    ∃ op rest hd, cells = op :: rest ∧ op ≠ opc.hlt ∧ dispatch opc op = some hd ∧
      ((1 ≤ hd.operandCount ∧ rest = [] ∧ e = .absentOperand 1) ∨
        (hd.operandCount = 2 ∧ (∃ a, rest = [a]) ∧ e = .absentOperand 2)) := by
  cases cells with
  | nil => simp only [decode, Except.error.injEq] at h; exact .inl ⟨rfl, h.symm⟩
  | cons op rest =>
    simp only [decode] at h
    split at h
    · cases h
    · rename_i hne
      split at h
      · rename_i hn
        exact .inr (.inl ⟨op, rest, rfl, (dispatch_none_iff opc op).mp ⟨hne, hn⟩, by simpa using h.symm⟩)
      · rename_i hd hhd
        refine .inr (.inr ⟨op, rest, hd, rfl, hne, hhd, ?_⟩)
        rcases takeOperands_cases hd rest with ⟨i, r, ho⟩ | ⟨h1, hr, ho⟩ | ⟨h1, hr, ho⟩ <;> rw [ho] at h
        · cases h
        · exact .inl ⟨h1, hr, by simpa using h.symm⟩
        · exact .inr ⟨h1, hr, by simpa using h.symm⟩

end Sys2Proof.Machine
end

