-- ==== Sys2Proof/Tests/Slice0.lean ====
section
/-! SUPPORT. Tests: the WellFormed smoke, words decoded, one-step vectors of spec/95_test_vectors.md, and for each statement
of Certificates/Slice0/Obligations.lean that has hypotheses a concrete input that meets them, clause by clause. -/

namespace Sys2Proof.Tests

open Sys2Proof Sys2Proof.Machine

/-! ### Helpers -/

/-- The next state an outcome holds. -/
def stateOf : Host.Outcome State Fault Refusal → Option State
  | .next s => some s
  | .fault _ => none
  | .refused _ => none

/-- A running machine at `pc` with cells stored from `pc` on, else as after Reset, Load and Run. -/
def code (pc : PcWord) (cells : List Byte) : State :=
  { State.reset with status := .running, pc := pc, mem := Memory.storeCells pc.toNat cells [] }

/-- The same with one register set. -/
def withReg (i : RegIndex) (v : Byte) (s : State) : State := s.setReg i v

/-- The same with one cell set. -/
def withCell (a : Nat) (v : Byte) (s : State) : State := { s with mem := s.mem.put a v }

/-- What a step's fault record says, with the `pc` and status it leaves. -/
def faultOf (o : Host.Outcome State Fault Refusal) : Option (Option FaultRecord × PcWord × Status) :=
  (stateOf o).map (fun t => (t.fault, t.pc, t.status))

/-! ### WellFormed: each register operand of 8 or more is refused -/

theorem test_wf_ldi : ¬(Instr.ldi 8 0).WellFormed ∧ (Instr.ldi 7 255).WellFormed := by decide
theorem test_wf_prn : ¬(Instr.prn 8).WellFormed ∧ (Instr.prn 7).WellFormed := by decide
theorem test_wf_push : ¬(Instr.push 255).WellFormed ∧ (Instr.push 7).WellFormed := by decide
theorem test_wf_pop : ¬(Instr.pop 8).WellFormed ∧ (Instr.pop 0).WellFormed := by decide
theorem test_wf_call : ¬(Instr.call 15).WellFormed ∧ (Instr.call 7).WellFormed := by decide
theorem test_wf_add_a : ¬(Instr.add 8 0).WellFormed ∧ (Instr.add 7 7).WellFormed := by decide
theorem test_wf_add_b : ¬(Instr.add 0 8).WellFormed := by decide
theorem test_wf_mul_a : ¬(Instr.mul 128 0).WellFormed ∧ (Instr.mul 7 0).WellFormed := by decide
theorem test_wf_mul_b : ¬(Instr.mul 0 9).WellFormed := by decide

/-! ### Decoding words written out from R71 to R76 -/

/-- R76's table: one word per constructor, and a table word's cells in order (the first cell lowest). -/
theorem test_table_words :
    decodeTableWord 8 0b00000001 = some .hlt ∧ decodeTableWord 24 0x2A0382 = some (.ldi 3 0x2A) ∧
    decodeTableWord 16 0x0747 = some (.prn 7) ∧ decodeTableWord 16 0x0245 = some (.push 2) ∧
    decodeTableWord 16 0x0146 = some (.pop 1) ∧ decodeTableWord 16 0x0650 = some (.call 6) ∧
    decodeTableWord 8 0b00010001 = some .ret ∧ decodeTableWord 24 0x0100A0 = some (.add 0 1) ∧
    decodeTableWord 24 0x0504A2 = some (.mul 4 5) := by decide

/-- R80: unassigned bytes, `0x00` and V-UNS-3's `0x83` among them, are rejected by name whatever follows. -/
theorem test_unassigned_rejected :
    decode Config.opc [0x00] = .error (.unsupportedOpcode 0x00) ∧
    decode Config.opc [0x83, 0x09, 0x09] = .error (.unsupportedOpcode 0x83) ∧
    decode Config.opc [0xFF] = .error (.unsupportedOpcode 0xFF) := ⟨rfl, rfl, rfl⟩

/-- R96: a used operand that is absent is rejected by its number; nothing at all is the absent opcode. -/
theorem test_absent_rejected :
    decode Config.opc [] = .error .absentOpcode ∧ decode Config.opc [0x82] = .error (.absentOperand 1) ∧
    decode Config.opc [0x82, 0x00] = .error (.absentOperand 2) ∧ decode Config.opc [0x50] = .error (.absentOperand 1) :=
  ⟨rfl, rfl, rfl, rfl⟩

/-- The first step after reset runs the word placed by `withFetchWord` (MUL R0, R1). -/
theorem test_withFetchWord : (stateOf (step (State.reset.withFetchWord 24 0x0100A2))).map (·.pc) = some 3 := by decide

/-! ### One-step vectors of 95_test_vectors.md, part 2 -/

/-- V-HLT-1, V-HLT-2. -/
theorem test_hlt : (stateOf (step (code 0 [0x01]))).map (fun t => (t.status, t.pc)) = some (.halted, 0) ∧
    (stateOf (step (code 0xFF [0x01]))).map (fun t => (t.status, t.pc)) = some (.halted, 0xFF) := by decide
/-- V-END-1. -/
theorem test_end : (stateOf (step (code 0x100 []))).map (fun t => (t.status, t.pc)) = some (.halted, 0x100) := by decide
/-- V-UNS-2: not `AbsentOperand`. -/
theorem test_unsupported : faultOf (step (code 0xFF [0xA1])) =
    some (some ⟨.unsupportedOpcode, 0xFF, 0xA1⟩, 0xFF, .faulted) := by decide
/-- V-LDI-3. -/
theorem test_ldi : (stateOf (step (code 0xFD [0x82, 0x00, 0xFF]))).map (fun t => (t.x[0], t.pc)) = some (0xFF, 0x100) := by
  decide
/-- V-LDI-4. -/
theorem test_ldi_absent : faultOf (step (code 0xFE [0x82, 0x00])) =
    some (some ⟨.absentOperand, 0xFE, 2⟩, 0xFE, .faulted) := by decide
/-- V-PRN-4: operand b absent and unused. -/
theorem test_prn : (stateOf (step (withReg 2 0x07 (code 0xFE [0x47, 0x02])))).map (fun t => (t.out, t.pc)) =
    some ([7], 0x100) := by decide
/-- V-PUSH-2: `PUSH R7` pushes the decremented stack pointer. -/
theorem test_push : (stateOf (step (code 0 [0x45, 0x07]))).map (fun t => (t.x[7], t.mem.get 0xF3, t.pc)) =
    some (0xF3, 0xF3, 2) := by decide
/-- V-PUSH-4. -/
theorem test_push_bounds : faultOf (step (withReg 7 0x00 (withReg 0 0x99 (code 0 [0x45, 0x00])))) =
    some (some ⟨.outOfBoundsWrite, 0, -1⟩, 0, .faulted) := by decide
/-- V-POP-3: `POP R7` leaves the popped byte plus 1. -/
theorem test_pop : (stateOf (step (withReg 7 0xF3 (withCell 0xF3 0x10 (code 0 [0x46, 0x07]))))).map
    (fun t => (t.x[7], t.pc)) = some (0x11, 2) := by decide
/-- V-POP-5: the cell at `0xFF` cannot be popped. -/
theorem test_pop_range : faultOf (step (withReg 7 0xFF (withCell 0xFF 0x33 (code 0 [0x46, 0x00])))) =
    some (some ⟨.stackPointerRange, 0, 0xFF⟩, 0, .faulted) := by decide
/-- V-CALL-2: `CALL R7` goes to the decremented stack pointer. -/
theorem test_call : (stateOf (step (code 6 [0x50, 0x07]))).map (fun t => (t.x[7], t.mem.get 0xF3, t.pc)) =
    some (0xF3, 0x08, 0xF3) := by decide
/-- V-CALL-8: the return address is tested before the stack pointer. -/
theorem test_call_order : faultOf (step (withReg 7 0x00 (code 0xFE [0x50, 0x00]))) =
    some (some ⟨.returnAddressRange, 0xFE, 0x100⟩, 0xFE, .faulted) := by decide
/-- V-RET-2: both operands absent and unused. -/
theorem test_ret : (stateOf (step (withReg 7 0xF3 (withCell 0xF3 0x08 (code 0xFF [0x11]))))).map
    (fun t => (t.x[7], t.pc)) = some (0xF4, 8) := by decide
/-- V-ADD-2: 300 mod 256. -/
theorem test_add : (stateOf (step (withReg 0 0xC8 (withReg 1 0x64 (code 0 [0xA0, 0x00, 0x01]))))).map
    (fun t => (t.x[0], t.x[1], t.pc)) = some (0x2C, 0x64, 3) := by decide
/-- V-ADD-7: a is reported before b. -/
theorem test_add_invalid : faultOf (step (code 0 [0xA0, 0x08, 0x09])) =
    some (some ⟨.invalidRegister, 0, 8⟩, 0, .faulted) := by decide
/-- V-MUL-3: 65025 mod 256. -/
theorem test_mul : (stateOf (step (withReg 0 0xFF (withReg 1 0xFF (code 0 [0xA2, 0x00, 0x01]))))).map
    (fun t => (t.x[0], t.x[1])) = some (0x01, 0xFF) := by decide
/-- V-LOAD-5: the load stops at the word 256, and the words before it stay. -/
theorem test_load : (stateOf (hostLoad [130, 0, 256] State.reset)).map
    (fun t => (t.fault, t.mem.get 0, t.mem.get 2)) = some (some ⟨.loadValueRange, 0, 2⟩, 0x82, 0) := by decide
/-- 40_run_loop_hlt.md R98: no step from `HALTED`. -/
theorem test_no_step : step { State.reset with status := .halted } = .refused (.noStep .halted) := rfl

/-! ### Inputs that meet the hypotheses of the statements

One theorem per statement with hypotheses, a conjunct per clause, at a boundary of the clause's range. -/

/-- A running machine at `pc` with nothing in memory. -/
abbrev at' (pc : PcWord) : State := code pc []

theorem wit_DecodeOfEncodeIsIdentity : Config.opc.Valid := by decide

theorem wit_DecodedCellsAreTheEncoding : decode Config.opc [0x82, 0x03, 0x2A, 0x01] = .ok (.ldi 3 0x2A, [0x01]) := rfl

theorem wit_OpcodeByteIsComparedWhole : Config.opc.Valid ∧
    decode Config.opc [0xA0, 0, 1] = .ok (.add 0 1, []) ∧ decode Config.opc [0xA2, 0, 1] = .ok (.mul 0 1, []) ∧
    decode Config.opc [0xA0, 2, 3] = .ok (.add 2 3, []) := ⟨by decide, rfl, rfl, rfl⟩

theorem wit_StepRunsDecodedInstruction : (code 0xFD [0x82, 0x00, 0xFF]).status = .running ∧
    decode Config.opc (fetchCells (code 0xFD [0x82, 0x00, 0xFF])) = .ok (.ldi 0 0xFF, []) := ⟨rfl, rfl⟩

theorem wit_StepRunsInstructionInMemory : Config.opc.Valid ∧ (code 0xFF [0x11]).status = .running ∧
    CodeAt Config.opc .ret 0xFF (code 0xFF [0x11]).mem ∧ CodeAt Config.opc (.prn 2) 0xFE (code 0xFE [0x47, 2]).mem ∧
    CodeAt Config.opc (.mul 0 1) 0xFD (code 0xFD [0xA2, 0, 1]).mem := by
  unfold CodeAt; decide

theorem wit_StepFollowsTheCheckOrder : (code 0 [0x01]).status = .running ∧
    verdict Config.opc (code 0 [0x01]) = .halts ∧ verdict Config.opc (code 0x100 []) = .halts ∧
    verdict Config.opc (code 0xFF [0xA1]) = .faults .unsupportedOpcode 0xA1 ∧
    verdict Config.opc (code 0xFF [0x82]) = .faults .absentOperand 1 ∧
    verdict Config.opc (code 0xFE [0x82, 9]) = .faults .absentOperand 2 ∧
    verdict Config.opc (code 0 [0xA0, 8, 9]) = .faults .invalidRegister 8 ∧
    verdict Config.opc (code 0 [0xA0, 0, 9]) = .faults .invalidRegister 9 ∧
    verdict Config.opc (withReg 7 0 (code 0xFE [0x50, 0])) = .faults .returnAddressRange 0x100 ∧
    verdict Config.opc (withReg 7 0 (code 0xFD [0x50, 0])) = .faults .outOfBoundsWrite (-1) ∧
    verdict Config.opc (withReg 7 0xFF (code 0 [0x46, 0])) = .faults .stackPointerRange 0xFF ∧
    verdict Config.opc (withReg 7 0xF3 (withCell 0xF3 0xFF (code 0 [0x46, 7]))) = .faults .stackPointerRange 0xFF ∧
    verdict Config.opc (withReg 7 0xFF (withCell 0xFF 0x10 (code 0 [0x46, 7]))) = .executes ∧
    verdict Config.opc (code 0xFE [0x47, 7]) = .executes := by decide

theorem wit_RunningStepAnswersNext : (at' 0).status = .running := rfl

theorem wit_EndStatesAbsorbUntilReset : ({ State.reset with status := .faulted } : State).status ≠ .running ∧
    State.reset.status ≠ .running ∧ (at' 0).status ≠ .idle := by decide

theorem wit_EndOfMemoryHalts : (at' 0x100).status = .running ∧ (at' 0x100).pc.toNat = 0x100 ∧
    ∃ t, exec (.prn 2) (code 0xFE [0x47, 2]) = .next t ∧ t.status = .running ∧ transfers (.prn 2) = false ∧
      (code 0xFE [0x47, 2]).pc.toNat + (Instr.prn 2).width = 0x100 := ⟨rfl, rfl, _, rfl, by decide⟩

theorem wit_UnassignedOpcodeFaults : (code 0xFF [0xA1]).status = .running ∧
    (code 0xFF [0xA1]).mem.read 0xFF = some 0xA1 ∧ (0xA1 : Byte) ∉ Config.opc.toList := by decide

theorem wit_AbsentUsedOperandFaults :
    ((code 0xFF [0x47]).status = .running ∧ (code 0xFF [0x47]).mem.read 0xFF = some 0x47 ∧ (0x47 : Byte) ≠ Config.opc.hlt ∧
      dispatch Config.opc 0x47 = some .prn ∧ 1 ≤ Handler.prn.operandCount) ∧
    ((code 0xFE [0x82, 0]).mem.read 0xFE = some 0x82 ∧ dispatch Config.opc 0x82 = some .ldi ∧
      Handler.ldi.operandCount = 2) ∧
    faultOf (stepWith Config.opc (code 0xFF [0x47])) = some (some ⟨.absentOperand, 0xFF, 1⟩, 0xFF, .faulted) ∧
    faultOf (stepWith Config.opc (code 0xFE [0x82, 0])) = some (some ⟨.absentOperand, 0xFE, 2⟩, 0xFE, .faulted) ∧
    (code 0xFE [0x82, 0]).fault = none := by decide

theorem wit_InvalidRegisterFaults :
    ((at' 0xFD).pc.toNat + (Instr.add 7 8).operandCount ≤ 0xFF ∧
      (Instr.add 7 8).regOperands.find? (fun r => 8 ≤ r.toNat) = some 8) ∧
    ((Instr.push 7).WellFormed ∧ (withReg 7 0 (at' 0xFE)).fault = none ∧
      faultOf (exec (.push 7) (withReg 7 0 (at' 0xFE))) = some (some ⟨.outOfBoundsWrite, 0xFE, -1⟩, 0xFE, .faulted)) := by
  decide

theorem wit_HltHalts : (code 0xFF [0x01]).status = .running ∧
    (code 0xFF [0x01]).mem.read 0xFF = some Config.opc.hlt := by decide

theorem wit_LdiLoadsImmediate : (at' 0xFF).pc.toNat = 0xFF ∧ (at' 0xFE).pc.toNat = 0xFE ∧
    ((at' 0xFD).pc.toNat ≤ 0xFD ∧ 8 ≤ (8 : Byte).toNat ∧ (7 : Byte).toNat < 8) ∧ (at' 0xFB).pc.toNat ≤ 0xFB := by decide

theorem wit_PrnAppendsRegister : (at' 0xFF).pc.toNat = 0xFF ∧
    (at' 0xFE).pc.toNat ≤ 0xFE ∧ 8 ≤ (8 : Byte).toNat ∧ (7 : Byte).toNat < 8 := by decide

theorem wit_PushStoresBelowStackPointer : (at' 0xFF).pc.toNat = 0xFF ∧
    (at' 0xFE).pc.toNat ≤ 0xFE ∧ 8 ≤ (8 : Byte).toNat ∧ (7 : Byte).toNat < 8 ∧ (withReg 7 0 (at' 0xFE)).x[7] = 0 ∧
    1 ≤ (withReg 7 1 (at' 0xFE)).x[7].toNat := by decide

theorem wit_PopLoadsFromStackPointer :
    (withReg 7 0xFF (at' 0xFE)).mem.read (withReg 7 0xFF (at' 0xFE)).x[7].toNat = some 0 ∧
    (at' 0xFF).pc.toNat = 0xFF ∧ (at' 0xFE).pc.toNat ≤ 0xFE ∧ 8 ≤ (8 : Byte).toNat ∧ (6 : Byte).toNat < 7 ∧
    (withReg 7 0xFF (at' 0xFE)).x[7] = 0xFF ∧ (withReg 7 0xFE (at' 0xFE)).x[7] ≠ 0xFF ∧
    (withCell 0xF4 0xFF (at' 0xFE)).mem.read (at' 0xFE).x[7].toNat = some 0xFF ∧
    (withCell 0xF4 0xFE (at' 0xFE)).mem.read (at' 0xFE).x[7].toNat = some 0xFE := by decide

theorem wit_CallPushesReturnAddress : (at' 0xFF).pc.toNat = 0xFF ∧ (at' 0xFE).pc.toNat = 0xFE ∧
    (at' 0xFD).pc.toNat ≤ 0xFD ∧ 8 ≤ (8 : Byte).toNat ∧ (7 : Byte).toNat < 8 ∧ (withReg 7 0 (at' 0xFD)).x[7] = 0 ∧
    1 ≤ (withReg 7 1 (at' 0xFD)).x[7].toNat := by decide

theorem wit_RetPopsProgramCounter : (withReg 7 0xFF (at' 0xFF)).mem.read 0xFF = some 0 ∧
    (withReg 7 0xFF (at' 0xFF)).x[7] = 0xFF ∧ (withReg 7 0xFE (at' 0xFF)).mem.read 0xFE = some 0 ∧
    (withReg 7 0xFE (at' 0xFF)).x[7] ≠ 0xFF := by decide

theorem wit_AddKeepsLowEightBits : (at' 0xFF).pc.toNat = 0xFF ∧ (at' 0xFE).pc.toNat = 0xFE ∧
    (at' 0xFD).pc.toNat ≤ 0xFD ∧ 8 ≤ (8 : Byte).toNat ∧ (7 : Byte).toNat < 8 := by decide

theorem wit_MulKeepsLowEightBits : (at' 0xFF).pc.toNat = 0xFF ∧ (at' 0xFE).pc.toNat = 0xFE ∧
    (at' 0xFD).pc.toNat ≤ 0xFD ∧ 8 ≤ (8 : Byte).toNat ∧ (7 : Byte).toNat < 8 := by decide

theorem wit_PushThenPopRestores : (7 : Byte).toNat < 8 ∧ 1 ≤ (withReg 7 1 (at' 0xFC)).x[7].toNat ∧
    (withReg 7 1 (at' 0xFC)).pc.toNat ≤ 0xFC := by decide

theorem wit_PushesDescendTheStack : (∀ r ∈ ([0, 7] : List Byte), r.toNat < 8) ∧
    ([0, 7] : List Byte).length ≤ (withReg 7 2 (at' 0xFC)).x[7].toNat ∧
    (withReg 7 2 (at' 0xFC)).pc.toNat + 2 * ([0, 7] : List Byte).length ≤ 0x100 := by decide

theorem wit_PopsAscendTheStack : (∀ r ∈ ([0, 6] : List Byte), r.toNat < 7) ∧
    (withReg 7 0xFD (at' 0xFC)).x[7].toNat + ([0, 6] : List Byte).length ≤ 0xFF ∧
    (withReg 7 0xFD (at' 0xFC)).pc.toNat + 2 * ([0, 6] : List Byte).length ≤ 0x100 := by decide

theorem wit_PushesThenPopsRestore : (∀ r ∈ ([0, 6] : List Byte), r.toNat < 7) ∧
    ([0, 6] : List Byte).length ≤ (withReg 7 2 (at' 0xF8)).x[7].toNat ∧
    (withReg 7 2 (at' 0xF8)).pc.toNat + 4 * ([0, 6] : List Byte).length ≤ 0x100 := by decide

theorem wit_ReturnResumesAfterCall : (withReg 7 1 (at' 0xFD)).pc.toNat ≤ 0xFD ∧ (7 : Byte).toNat < 8 ∧
    1 ≤ (withReg 7 1 (at' 0xFD)).x[7].toNat ∧
    ∃ t, exec (.call 1) (withReg 7 1 (at' 0xFD)) = .next t ∧ ({ t with pc := 0xFF } : State).x[7] = t.x[7] ∧
      ({ t with pc := 0xFF } : State).mem.read t.x[7].toNat = t.mem.read t.x[7].toNat :=
  ⟨by decide, by decide, by decide, _, rfl, rfl, rfl⟩

theorem wit_OnlyListedRegistersChange : (∃ t, exec (.pop 6) (at' 0xFE) = .next t) ∧ 5 ∉ regsWritten (.pop 6) :=
  ⟨⟨_, rfl⟩, by decide⟩

theorem wit_OnlyTheStackCellChanges :
    (∃ t, exec (.pop 6) (at' 0xFE) = .next t) ∧ storesToStack (.pop 6) = false ∧
    (∃ t s₁, exec (.push 6) (withReg 7 1 (at' 0xFE)) = .next t ∧ decSp (withReg 7 1 (at' 0xFE)) = .ok s₁ ∧
      255 ≠ stackAddress s₁) ∧ storesToStack (.push 6) = true ∧
    (∃ t e, exec (.call 6) (withReg 7 0 (at' 0xFD)) = .next t ∧ decSp (withReg 7 0 (at' 0xFD)) = .error e) ∧
    storesToStack (.call 6) = true :=
  ⟨⟨_, rfl⟩, rfl, ⟨_, _, rfl, rfl, by decide⟩, rfl, ⟨_, _, rfl, rfl⟩, rfl⟩

theorem wit_OutputAndStatusFrame : (∃ t, exec .hlt (at' 0xFF) = .next t) ∧ ∀ r, Instr.hlt ≠ .prn r :=
  ⟨⟨_, rfl⟩, fun _ h => by cases h⟩

theorem wit_OnlyListedRegistersAreRead : (at' 0xFE).status = .running ∧
    (∀ j (hj : j < 8), j ∈ regsRead (.push 6) → #v[1, 2, 3, 4, 5, 6, 0, 0xF4][j] = (at' 0xFE).x[j]) ∧
    ∃ t, exec (.push 6) (at' 0xFE) = .next t ∧ t.status = .running ∧ 7 ∈ regsWritten (.push 6) ∧
      0 ∉ regsWritten (.push 6) := ⟨rfl, by decide, _, rfl, by decide⟩

theorem wit_ProgramCounterAfterInstruction :
    (∃ t, stepWith Config.opc (at' 0x100) = .next t ∧ (at' 0x100).pc.toNat = 0x100) ∧
    (∃ t, stepWith Config.opc (code 0xFF [0xA1]) = .next t ∧ t.status = .faulted) ∧
    (∃ t, exec (.prn 8) (at' 0xFE) = .next t ∧ t.status = .faulted) ∧
    (∃ t, exec .hlt (at' 0xFF) = .next t) ∧
    (∃ t, exec (.ldi 7 0) (at' 0xFD) = .next t ∧ t.status = .running ∧ transfers (.ldi 7 0) = false) ∧
    (∃ t, exec (.call 7) (at' 0xFD) = .next t ∧ t.status = .running ∧ (7 : Byte).toNat < 8) ∧
    (∃ t, exec .ret (at' 0xFF) = .next t ∧ t.status = .running ∧ (at' 0xFF).mem.read 0xF4 = some 0) :=
  ⟨⟨_, rfl, rfl⟩, ⟨_, rfl, rfl⟩, ⟨_, rfl, rfl⟩, ⟨_, rfl⟩, ⟨_, rfl, rfl, rfl⟩, ⟨_, rfl, rfl, by decide⟩, ⟨_, rfl, rfl, rfl⟩⟩

theorem wit_ProgramCounterNeverWraps : (code 0xFD [0xA2, 0, 1]).status = .running ∧
    (code 0xFD [0xA2, 0, 1]).pc.toNat ≤ 0x100 ∧
    (∃ t, stepWith Config.opc (code 0xFD [0xA2, 0, 1]) = .next t ∧ t.status = .running ∧
      decode Config.opc (fetchCells (code 0xFD [0xA2, 0, 1])) = .ok (.mul 0 1, []) ∧ transfers (.mul 0 1) = false) ∧
    (∃ t, stepWith Config.opc (code 0xFF [0x11]) = .next t ∧ t.status = .running ∧
      decode Config.opc (fetchCells (code 0xFF [0x11])) = .ok (.ret, []) ∧ transfers .ret = true) :=
  ⟨rfl, by decide, ⟨_, rfl, rfl, rfl, rfl⟩, ⟨_, rfl, rfl, rfl, rfl⟩⟩

/-- A running state with nothing in memory meets the invariant: it is reachable by Reset and Run. -/
theorem running_inv : Inv { State.reset with status := .running } where
  memWf := by decide
  pcRange := by decide
  faultIff := by decide
  faultLegal := by simp [State.reset]
  idleReset := by simp

theorem wit_StepKeepsInvariant : Inv { State.reset with status := .running } ∧
    ∃ t, stepWith Config.opc { State.reset with status := .running } = .next t := ⟨running_inv, _, rfl⟩

theorem wit_HostTransactionKeepsInvariant : Inv { State.reset with status := .running } ∧
    ∃ t, hostStep .reset { State.reset with status := .running } = .next t := ⟨running_inv, _, rfl⟩

theorem wit_FaultingStepIsPrecise : (code 0xFF [0xA1]).status = .running ∧
    ∃ t, stepWith Config.opc (code 0xFF [0xA1]) = .next t ∧ t.status = .faulted := ⟨rfl, _, rfl, rfl⟩

theorem wit_FaultsCannotNest : Inv { State.reset with status := .running } ∧
    ∃ t, stepWith Config.opc { State.reset with status := .running } = .next t ∧ t.fault ≠ none :=
  ⟨running_inv, _, rfl, by decide⟩

theorem wit_OutputIsAppendOnly : ∃ t, stepWith Config.opc (code 0xFE [0x47, 7]) = .next t := ⟨_, rfl⟩

theorem wit_HaltsAreToldApartByPc : (at' 0x100).status = .running ∧ (at' 0x100).pc.toNat ≤ 0x100 ∧
    (∃ t, stepWith Config.opc (at' 0x100) = .next t) ∧ (∃ t, stepWith Config.opc (code 0xFF [0x01]) = .next t) :=
  ⟨rfl, by decide, ⟨_, rfl⟩, ⟨_, rfl⟩⟩

theorem wit_OutOfBoundsWriteOnlyAtMinusOne : (withReg 7 0 (code 0xFD [0x50, 1])).status = .running ∧
    (withReg 7 0 (code 0xFD [0x50, 1])).fault = none ∧
    ∃ t f, stepWith Config.opc (withReg 7 0 (code 0xFD [0x50, 1])) = .next t ∧ t.fault = some f ∧
      f.cause = .outOfBoundsWrite := ⟨rfl, rfl, _, _, rfl, rfl, rfl⟩

theorem wit_PushedHaltIsFetchedNext : (6 : Byte).toNat < 7 ∧ Config.opc.Valid ∧
    (withReg 6 0x01 (withReg 7 0xFF (code 0xFC [0x45, 6]))).status = .running ∧
    CodeAt Config.opc (.push 6) 0xFC (withReg 6 0x01 (withReg 7 0xFF (code 0xFC [0x45, 6]))).mem ∧
    (withReg 6 0x01 (withReg 7 0xFF (code 0xFC [0x45, 6]))).x[7].toNat = 0xFC + 3 ∧
    (withReg 6 0x01 (withReg 7 0xFF (code 0xFC [0x45, 6]))).x[6] = Config.opc.hlt := by
  unfold CodeAt; decide

theorem wit_ReadIsAbsentPastMemory : 0xFF ≤ 0xFF ∧ 0x100 ≤ 0x100 := by decide

theorem wit_WriteStoresOrFaults : ((0 : Int) ≤ 0xFF ∧ (0xFF : Int) ≤ 0xFF) ∧ ((-1 : Int) < 0 ∨ 0x100 ≤ (-1 : Int)) ∧
    ((0x100 : Int) < 0 ∨ 0x100 ≤ (0x100 : Int)) := by decide

theorem wit_CanonicalMemoriesAreEqual : Memory.wf [(0x00, 1), (0xFF, 2)] ∧
    ∀ a, Memory.read a [(0x00, 1), (0xFF, 2)] = Memory.read a [(0x00, 1), (0xFF, 2)] := ⟨by decide, fun _ => rfl⟩

theorem wit_ResetAndLoadedState : ∃ ws : List Byte, ws.length = 256 ∧ ws.length ≤ 256 :=
  ⟨List.replicate 256 0x01, List.length_replicate, List.length_replicate.le⟩

theorem wit_LoadWritesWordsInOrder : State.reset.status = .idle ∧
    ((∀ w ∈ ([0, 255] : List Int), 0 ≤ w ∧ w ≤ 255) ∧ ([0, 255] : List Int).length ≤ 256) ∧
    (∃ (ws : List Int) (i : Nat) (hi : i < ws.length), i ≤ 256 ∧ (∀ j (hj : j < i), 0 ≤ ws[j] ∧ ws[j] ≤ 255) ∧
      (ws[i] < 0 ∨ 255 < ws[i])) ∧
    ∃ (ws : List Int) (_ : 256 < ws.length), ∀ (j : Nat) (hj : j ≤ 256), 0 ≤ ws[j] ∧ ws[j] ≤ 255 :=
  ⟨rfl, by decide, ⟨[0, 255, 256], 2, by decide, by decide, by decide, by decide⟩, List.replicate 257 255, by rw [List.length_replicate]; decide,
    fun j hj => by rw [List.getElem_replicate]; decide⟩

theorem wit_RunStartsTheLoop : State.reset.status = .idle := rfl

theorem wit_HostObservesTheMachine : (at' 0).status = .running ∧ State.reset.status ≠ .running := by decide

theorem wit_NumeralIsUnsignedDecimal : (numeral (0 : Byte).toNat).head? = some '0' := by decide

theorem wit_OutputTextDeterminesOutput : outText [7, 24] = outText [7, 24] := rfl

theorem wit_FaultCodesAreOneToSeven : FaultCause.code .absentOperand = FaultCause.code .absentOperand := rfl

end Sys2Proof.Tests
end

/-! ## How `pc` leaves an instruction (10_state.md R25) -/

namespace Sys2Proof.Machine

/-- A step whose decoding rejects ends at the `pc` it fetched from (R92, R95, R96). -/
@[simp] theorem rejectFetch_pc (e : DecodeError) (s : State) : (rejectFetch e s).pc = s.pc := by
  cases e <;> rfl

/-- One past the last cell there is nothing to fetch (R92). -/
theorem fetchCells_end {s : State} (h : s.pc.toNat = 0x100) : fetchCells s = [] := by
  rw [fetchCells_eq, Memory.read_of_ge (by rw [h]; decide)]

/-- A step at the end of memory is the halt of R92. -/
theorem stepWith_end {opc : Opc} {s t : State} (h : stepWith opc s = .next t) (hpc : s.pc.toNat = 0x100) :
    t = s.halt := by
  obtain ⟨-, ⟨e, hd, rfl⟩ | ⟨i, rest, hd, -⟩⟩ := stepWith_cases h <;> rw [fetchCells_end hpc] at hd <;> cases hd
  rfl

/-- An advance that stays within `0x100` does not wrap in the 9 bits of `pc` (R26). -/
theorem advance_pc_toNat {s : State} {n : Nat} (h : s.pc.toNat + n ≤ 0x100) :
    (s.advance n).pc.toNat = s.pc.toNat + n := by
  simp only [State.advance_pc, BitVec.toNat_add, BitVec.toNat_ofNat]
  omega

/-- An instruction's own effect never enters `FAULTED`: only HLT changes the status. -/
theorem Completes.status_ne_faulted {i : Instr} {s t : State} (h : Completes s t i) (hs : s.status ≠ .faulted) :
    t.status ≠ .faulted := by
  cases i with
  | hlt => subst h; simp
  | ldi ra imm => obtain ⟨-, -, rfl⟩ := h; exact hs
  | prn ra => obtain ⟨-, -, rfl⟩ := h; exact hs
  | push ra => obtain ⟨-, -, -, rfl⟩ := h; exact hs
  | pop ra => obtain ⟨-, -, -, -, -, rfl⟩ := h; exact hs
  | call ra => obtain ⟨-, -, -, rfl⟩ := h; exact hs
  | ret => obtain ⟨-, rfl⟩ := h; exact hs
  | add ra rb => obtain ⟨-, -, -, rfl⟩ := h; exact hs
  | mul ra rb => obtain ⟨-, -, -, rfl⟩ := h; exact hs

/-- An instruction that did not fault had its own effect. -/
theorem exec_completes {i : Instr} {s t : State} (h : exec i s = .next t) (ht : t.status ≠ .faulted) :
    Completes s t i := by
  obtain ⟨e, rfl, -⟩ | hc := exec_cases h
  · exact absurd (State.raise_status e s) ht
  · exact hc

/-- An instruction that faults leaves `pc` (R10, R162). -/
theorem exec_faulted_pc {i : Instr} {s t : State} (h : exec i s = .next t) (hs : s.status ≠ .faulted)
    (ht : t.status = .faulted) : t.pc = s.pc := by
  obtain ⟨e, rfl, -⟩ | hc := exec_cases h
  · rfl
  · exact absurd ht (hc.status_ne_faulted hs)

/-- A step that faults leaves `pc` (R10, R162). -/
theorem stepWith_faulted_pc {opc : Opc} {s t : State} (h : stepWith opc s = .next t) (ht : t.status = .faulted) :
    t.pc = s.pc := by
  obtain ⟨hs, ⟨e, -, rfl⟩ | ⟨i, rest, -, hx⟩⟩ := stepWith_cases h
  · exact rejectFetch_pc e s
  · exact exec_faulted_pc hx (by simp [hs]) ht

/-- The own effect of an instruction that is neither HLT nor a transfer moves `pc` on by its width: its operand cells
exist, so the sum is at most `0x100` (R25, R26). -/
theorem Completes.pc_advances {i : Instr} {s t : State} (h : Completes s t i) (hi : i ≠ .hlt)
    (htr : transfers i = false) : t.pc.toNat = s.pc.toNat + i.width := by
  cases i with
  | hlt => exact absurd rfl hi
  | ldi ra imm => obtain ⟨hp, -, rfl⟩ := h; exact advance_pc_toNat (n := 3) (Nat.add_le_add_right hp 3)
  | prn ra => obtain ⟨hp, -, rfl⟩ := h; exact advance_pc_toNat (n := 2) (Nat.add_le_add_right hp 2)
  | push ra => obtain ⟨hp, -, -, rfl⟩ := h; exact advance_pc_toNat (n := 2) (Nat.add_le_add_right hp 2)
  | pop ra => obtain ⟨hp, -, -, -, -, rfl⟩ := h; exact advance_pc_toNat (n := 2) (Nat.add_le_add_right hp 2)
  | call ra => cases htr
  | ret => cases htr
  | add ra rb => obtain ⟨hp, -, -, rfl⟩ := h; exact advance_pc_toNat (n := 3) (Nat.add_le_add_right hp 3)
  | mul ra rb => obtain ⟨hp, -, -, rfl⟩ := h; exact advance_pc_toNat (n := 3) (Nat.add_le_add_right hp 3)

/-- CALL goes to the named register as CALL left it: R7 is read after the decrement, any other register is untouched
(R130). -/
theorem Completes.pc_call {r : Byte} {s t : State} (h : Completes s t (.call r)) (hr : r.toNat < 8) :
    t.pc = (t.x[r.toNat]).setWidth 9 := by
  obtain ⟨-, -, -, rfl⟩ := h
  exact congrArg target (reg_setReg_sp hr).symm

/-- RET goes to the byte the stack pointer's cell holds (R131). -/
theorem Completes.pc_ret {v : Byte} {s t : State} (h : Completes s t .ret)
    (hv : s.mem.read s.x[7].toNat = some v) : t.pc = v.setWidth 9 := by
  obtain ⟨-, rfl⟩ := h
  exact congrArg target (Option.some.inj ((read_cell _ s).symm.trans hv))

/-- HLT leaves `pc` (R93). -/
theorem exec_hlt_pc {s t : State} (h : exec .hlt s = .next t) : t.pc = s.pc := by
  rw [settle_ok_next (s := s) h, State.halt_pc]

/-- Settles O32, from what a step and an instruction can do: a fault, the end-of-memory halt and HLT leave `pc`, and the
effect of any other instruction is read off `Completes`. -/
theorem programCounterAfterInstruction : Obligations.ProgramCounterAfterInstruction := by
  intro opc i s t hs
  have hsf : s.status ≠ .faulted := by simp [hs]
  refine ⟨fun h hpc => by rw [stepWith_end h hpc, State.halt_pc], stepWith_faulted_pc, fun h => ?_⟩
  have completes (ht : t.status = .running) : Completes s t i := exec_completes h (by simp [ht])
  refine ⟨exec_faulted_pc h hsf, ?_, fun ht htr => ?_, ?_, ?_⟩
  · rintro rfl
    exact exec_hlt_pc h
  · have hi : i ≠ .hlt := by
      rintro rfl
      have : t = s.halt := completes ht
      simp [this] at ht
    exact (completes ht).pc_advances hi htr
  · rintro r hr ht rfl
    exact (completes ht).pc_call hr
  · rintro v ht rfl hv
    exact (completes ht).pc_ret hv

end Sys2Proof.Machine

/-! ## What a read and a write of memory give (20_memory.md R41, R42) -/

namespace Sys2Proof.Machine

/-- A write inside the 256 cells stores the byte. -/
theorem Memory.write_inBounds {addr : Int} (h0 : 0 ≤ addr) (h1 : addr < Config.memSize) (v : Byte) (m : Memory) :
    m.write addr v = .ok (m.put addr.toNat v) :=
  if_pos ⟨h0, h1⟩

/-- A write outside the 256 cells raises, and no memory results. -/
theorem Memory.write_outOfBounds {addr : Int} (h : addr < 0 ∨ Config.memSize ≤ addr) (v : Byte) (m : Memory) :
    m.write addr v = .error (.outOfBoundsWrite addr) :=
  if_neg (by omega)

/-- Settles O43, by the two laws of a read, inside and past the 256 cells. -/
theorem readIsAbsentPastMemory : Obligations.ReadIsAbsentPastMemory :=
  fun m _ => ⟨fun h => Memory.read_of_lt (Nat.lt_succ_of_le h) m, fun h => Memory.read_of_ge h m⟩

/-- Settles O44: an in-bounds write is a `put`, which one read sees at its address and no other read sees
(`Memory.read_put`). -/
theorem writeStoresOrFaults : Obligations.WriteStoresOrFaults := by
  intro m addr v
  refine ⟨fun h0 h1 => ?_, fun h => Memory.write_outOfBounds h v m⟩
  have hlt : addr < Config.memSize := Int.lt_add_one_of_le h1
  have hread (a : Nat) := Memory.read_put (b := a) v m ((Int.toNat_lt h0).mpr hlt)
  exact ⟨m.put addr.toNat v, Memory.write_inBounds h0 hlt v m, (hread _).trans (if_pos rfl),
    fun a ha => (hread a).trans (if_neg ha)⟩

end Sys2Proof.Machine

/-! ## HLT in the loop (40_run_loop_hlt.md R91, R93) -/

namespace Sys2Proof.Machine

/-- Where the cell at `pc` exists, it is the first of the fetched cells, whatever the two after it are (R91, R94). -/
theorem fetchCells_of_read {s : State} {op : Byte} (h : s.mem.read s.pc.toNat = some op) :
    ∃ rest, fetchCells s = op :: rest :=
  ⟨_, List.filterMap_cons_some h⟩

/-- The HLT byte decodes to HLT before any look at the cells after it (R90, R93). -/
@[simp] theorem decode_hlt (opc : Opc) (rest : List Byte) : decode opc (opc.hlt :: rest) = .ok (.hlt, rest) :=
  if_pos rfl

/-- A running machine takes the meaning of the instruction it decodes (R90, R97). -/
theorem stepWith_decoded {opc : Opc} {s : State} {i : Instr} {rest : List Byte} (hs : s.status = .running)
    (hd : decode opc (fetchCells s) = .ok (i, rest)) : stepWith opc s = exec i s := by
  simp only [stepWith, hs, hd]

/-- HLT's whole meaning is the halt (R93). -/
@[simp] theorem exec_hlt (s : State) : exec .hlt s = .next s.halt := rfl

/-- Settles O14: the HLT byte is fetched first and decodes to HLT whatever follows it, so the step is HLT's meaning. -/
theorem hltHalts : Obligations.HltHalts := by
  intro opc s
  refine ⟨rfl, exec_hlt s, fun hs hop => ?_⟩
  obtain ⟨rest, hf⟩ := fetchCells_of_read hop
  have hd : decode opc (fetchCells s) = .ok (.hlt, rest) := by rw [hf, decode_hlt]
  exact (stepWith_decoded hs hd).trans (exec_hlt s)

end Sys2Proof.Machine

/-! ## Encoding and decoding (30_encoding.md R70 to R81) -/

namespace Sys2Proof

/-- The opcode byte that the dispatch table gives a handler (R76). -/
def Handler.opcode (opc : Opc) : Handler → Byte
  | .ldi => opc.ldi
  | .prn => opc.prn
  | .push => opc.push
  | .pop => opc.pop
  | .call => opc.call
  | .ret => opc.ret
  | .add => opc.add
  | .mul => opc.mul

/-- The handler of an instruction; HLT has none (R76). -/
def Instr.handler : Instr → Option Handler
  | .hlt => none
  | .ldi _ _ => some .ldi
  | .prn _ => some .prn
  | .push _ => some .push
  | .pop _ => some .pop
  | .call _ => some .call
  | .ret => some .ret
  | .add _ _ => some .add
  | .mul _ _ => some .mul

theorem opcodeOf_of_handler {opc : Opc} {i : Instr} {h : Handler} (hi : i.handler = some h) :
    opcodeOf opc i = h.opcode opc := by
  cases i <;> cases hi <;> rfl

/-- What dispatch finds is the handler of that very byte (R75). -/
theorem opcode_of_dispatch {opc : Opc} {op : Byte} {h : Handler} (hd : dispatch opc op = some h) :
    op = h.opcode opc := by
  unfold dispatch at hd
  split_ifs at hd <;> cases hd <;> assumption

/-- With pairwise distinct opcode bytes dispatch finds each handler by its own byte (R76). -/
theorem dispatch_opcode {opc : Opc} (hv : opc.Valid) (h : Handler) :
    h.opcode opc ≠ opc.hlt ∧ dispatch opc (h.opcode opc) = some h := by
  simp only [Opc.Valid, Opc.toList, List.nodup_cons, List.mem_cons, List.not_mem_nil, or_false, not_or] at hv
  cases h <;> simp [dispatch, Handler.opcode, hv, eq_comm]

/-- A handler takes an instruction's own operands off the cells (R72 to R74). -/
theorem takeOperands_operands {i : Instr} {h : Handler} (hi : i.handler = some h) (rest : List Byte) :
    takeOperands h (i.operands ++ rest) = .ok (i, rest) := by
  cases i <;> cases hi <;> rfl

theorem takeOne_ok {f : Byte → Instr} {cells rest : List Byte} {i : Instr} (h : takeOne f cells = .ok (i, rest)) :
    ∃ a, i = f a ∧ cells = a :: rest := by
  cases cells with
  | nil => cases h
  | cons a cells => cases h; exact ⟨a, rfl, rfl⟩

theorem takeTwo_ok {f : Byte → Byte → Instr} {cells rest : List Byte} {i : Instr}
    (h : takeTwo f cells = .ok (i, rest)) : ∃ a b, i = f a b ∧ cells = a :: b :: rest := by
  rcases cells with _ | ⟨a, _ | ⟨b, cells⟩⟩ <;> cases h
  exact ⟨a, b, rfl, rfl⟩

/-- A handler that has its operands answers its own instruction and took that instruction's operand cells. -/
theorem takeOperands_ok {h : Handler} {cells rest : List Byte} {i : Instr}
    (ht : takeOperands h cells = .ok (i, rest)) : i.handler = some h ∧ cells = i.operands ++ rest := by
  cases h with
  | ldi | add | mul => obtain ⟨a, b, rfl, rfl⟩ := takeTwo_ok ht; exact ⟨rfl, rfl⟩
  | prn | push | pop | call => obtain ⟨a, rfl, rfl⟩ := takeOne_ok ht; exact ⟨rfl, rfl⟩
  | ret => cases ht; exact ⟨rfl, rfl⟩

/-- A byte with a handler is decoded by that handler (R90, R97). -/
theorem decode_of_dispatch {opc : Opc} {op : Byte} {h : Handler} (hne : op ≠ opc.hlt)
    (hd : dispatch opc op = some h) (cells : List Byte) : decode opc (op :: cells) = takeOperands h cells := by
  simp [decode, hne, hd]

/-- Everything decoding can accept: HLT's byte, or a byte with a handler that has its operands. -/
theorem decode_ok {opc : Opc} {cells rest : List Byte} {i : Instr} (h : decode opc cells = .ok (i, rest)) :
    (i = .hlt ∧ cells = opc.hlt :: rest) ∨
    ∃ op hd cs, cells = op :: cs ∧ op ≠ opc.hlt ∧ dispatch opc op = some hd ∧ takeOperands hd cs = .ok (i, rest) := by
  cases cells with
  | nil => cases h
  | cons op cs =>
    by_cases hne : op = opc.hlt
    · subst hne
      cases h.symm.trans (if_pos rfl)
      exact .inl ⟨rfl, rfl⟩
    · cases hd : dispatch opc op with
      | none => simp [decode, hne, hd] at h
      | some hd' => exact .inr ⟨op, hd', cs, rfl, hne, hd, by rwa [decode_of_dispatch hne hd] at h⟩

/-- The instruction a handler makes of two operand bytes, taking those it uses (R79). -/
def Handler.instr (a b : Byte) : Handler → Instr
  | .ldi => .ldi a b
  | .prn => .prn a
  | .push => .push a
  | .pop => .pop a
  | .call => .call a
  | .ret => .ret
  | .add => .add a b
  | .mul => .mul a b

theorem Handler.handler_instr (h : Handler) (a b : Byte) : (h.instr a b).handler = some h := by cases h <;> rfl

theorem Handler.instr_operandCount (h : Handler) (a b : Byte) : (h.instr a b).operandCount = h.operandCount := by
  cases h <;> rfl

theorem Handler.instr_ne_hlt (h : Handler) (a b : Byte) : h.instr a b ≠ .hlt := by cases h <;> nofun

/-- The instruction a handler takes off the cells is the one it makes of the first two of them. -/
theorem eq_instr_of_takeOperands {h : Handler} {cells rest : List Byte} {i : Instr}
    (ht : takeOperands h cells = .ok (i, rest)) : i = h.instr (cells[0]?.getD 0) (cells[1]?.getD 0) := by
  obtain ⟨hi, rfl⟩ := takeOperands_ok ht
  cases i <;> cases hi <;> rfl

/-- Operand a is the first register operand of every handler with an operand. -/
theorem Handler.find?_regOperands_first (h : Handler) {a b : Byte} (hc : 1 ≤ h.operandCount) (ha : 8 ≤ a.toNat) :
    (h.instr a b).regOperands.find? (fun r => 8 ≤ r.toNat) = some a := by
  cases h with
  | ret => cases hc
  | _ => exact List.find?_cons_of_pos (by simpa using ha)

/-- Operand b is the second register operand of ADD and MUL only; LDI's is an immediate (R78). -/
theorem Handler.find?_regOperands_second {h : Handler} {a b : Byte} (hh : h = .add ∨ h = .mul) (ha : a.toNat < 8)
    (hb : 8 ≤ b.toNat) : (h.instr a b).regOperands.find? (fun r => 8 ≤ r.toNat) = some b := by
  obtain rfl | rfl := hh <;> simp [Handler.instr, Instr.regOperands, Nat.not_le.mpr ha, hb]

/-- Settles O1: HLT's byte is tested first; any other opcode byte dispatches to the instruction's handler, which takes
exactly its operands. -/
theorem decodeOfEncodeIsIdentity : Obligations.DecodeOfEncodeIsIdentity := by
  intro opc hv i rest
  cases hi : i.handler with
  | none => cases i <;> cases hi; exact if_pos rfl
  | some h =>
    obtain ⟨hne, hd⟩ := dispatch_opcode hv h
    rw [encode, opcodeOf_of_handler hi, List.cons_append, decode_of_dispatch hne hd, takeOperands_operands hi]

/-- Settles O2: an accepted byte is its handler's, and the handler took the instruction's operands. -/
theorem decodedCellsAreTheEncoding : Obligations.DecodedCellsAreTheEncoding := by
  intro opc cells i rest h
  obtain ⟨rfl, rfl⟩ | ⟨op, hd, cs, rfl, -, hdisp, ht⟩ := decode_ok h
  · rfl
  · obtain ⟨hi, rfl⟩ := takeOperands_ok ht
    rw [opcode_of_dispatch hdisp, ← opcodeOf_of_handler hi]
    rfl

/-- Settles O3, by running the decoder on the nine words. -/
theorem defaultWordsDecode : Obligations.DefaultWordsDecode :=
  ⟨rfl, rfl, rfl, rfl, rfl, rfl, rfl, rfl, rfl⟩

/-- An instruction's row in R76's table, which lists opcode bytes and mnemonics in one order. -/
def Instr.row : Instr → Fin 9
  | .hlt => 0
  | .ldi _ _ => 1
  | .prn _ => 2
  | .push _ => 3
  | .pop _ => 4
  | .call _ => 5
  | .ret => 6
  | .add _ _ => 7
  | .mul _ _ => 8

/-- The mnemonics, in the order of R76's table. -/
def mnemonics : List String := ["HLT", "LDI", "PRN", "PUSH", "POP", "CALL", "RET", "ADD", "MUL"]

theorem opcodeOf_eq_row (opc : Opc) (i : Instr) : opcodeOf opc i = opc.toList[i.row] := by cases i <;> rfl

theorem mnemonic_eq_row (i : Instr) : i.mnemonic = mnemonics[i.row] := by cases i <;> rfl

/-- Under a valid assignment the opcode byte names the operation: both are a row of R76's table, and no row repeats. -/
theorem opcodeOf_eq_iff_mnemonic_eq {opc : Opc} (hv : opc.Valid) (i i' : Instr) :
    opcodeOf opc i = opcodeOf opc i' ↔ i.mnemonic = i'.mnemonic := by
  have hm : mnemonics.Nodup := by decide
  rw [opcodeOf_eq_row, opcodeOf_eq_row, mnemonic_eq_row, mnemonic_eq_row]
  exact hv.getElem_inj_iff.trans hm.getElem_inj_iff.symm

/-- Settles O4: the first cell of what decodes is the instruction's whole opcode byte. -/
theorem opcodeByteIsComparedWhole : Obligations.OpcodeByteIsComparedWhole := by
  intro opc op op' cells cells' rest rest' i i' hv h h'
  obtain ⟨rfl, -⟩ := List.cons.inj (decodedCellsAreTheEncoding opc _ i rest h)
  obtain ⟨rfl, -⟩ := List.cons.inj (decodedCellsAreTheEncoding opc _ i' rest' h')
  exact opcodeOf_eq_iff_mnemonic_eq hv i i'

end Sys2Proof

/-! ## Every fault an instruction can raise, and its own effect, exactly (60_exceptions.md R151 to R157, R161) -/

namespace Sys2Proof.Machine

/-- The one fault that an instruction raises at a state, each constructor with the checks before it in R161's order
passed. -/
inductive Raises (s : State) : Instr → FaultEvent → Prop
  | absentFirst {i : Instr} (hi : 1 ≤ i.operandCount) (hp : 0xFF ≤ s.pc.toNat) : Raises s i (.absentOperand 1)
  | absentSecond {i : Instr} (hi : i.operandCount = 2) (hp : s.pc.toNat = 0xFE) : Raises s i (.absentOperand 2)
  | invalidRegister {i : Instr} {r : Byte} (hp : s.pc.toNat + i.operandCount ≤ 0xFF)
      (hr : i.regOperands.find? (fun r => 8 ≤ r.toNat) = some r) : Raises s i (.invalidRegister r)
  | callRange {ra : Byte} (hp : s.pc.toNat = 0xFE) (ha : ra.toNat < 8) :
      Raises s (.call ra) (.returnAddressRange 0x100)
  | callEmpty {ra : Byte} (hp : s.pc.toNat ≤ 0xFD) (ha : ra.toNat < 8) (h0 : s.x[7] = 0) :
      Raises s (.call ra) (.outOfBoundsWrite (-1))
  | pushEmpty {ra : Byte} (hp : s.pc.toNat ≤ 0xFE) (ha : ra.toNat < 8) (h0 : s.x[7] = 0) :
      Raises s (.push ra) (.outOfBoundsWrite (-1))
  | popRange {ra : Byte} (hp : s.pc.toNat ≤ 0xFE) (ha : ra.toNat < 8)
      (hff : (if ra = 7 then s.cell s.x[7] else s.x[7]) = 0xFF) : Raises s (.pop ra) (.stackPointerRange 0xFF)
  | retRange (hff : s.x[7] = 0xFF) : Raises s .ret (.stackPointerRange 0xFF)

/-! ### The operand forms, by the address they are fetched from -/

theorem operandsF1_valid {a : Byte} {s : State} (hp : s.pc.toNat ≤ 0xFE) (ha : a.toNat < 8) :
    operandsF1 a s = .ok ⟨a.toNat, ha⟩ :=
  operandsF1_ok (Nat.lt_succ_of_le (Nat.succ_le_succ hp)) ha

theorem operandsF2I_valid {a b : Byte} {s : State} (hp : s.pc.toNat ≤ 0xFD) (ha : a.toNat < 8) :
    operandsF2I a b s = .ok (⟨a.toNat, ha⟩, b) :=
  operandsF2I_ok (Nat.lt_succ_of_le (Nat.add_le_add_right hp 2)) ha

theorem operandsF2R_valid {a b : Byte} {s : State} (hp : s.pc.toNat ≤ 0xFD) (ha : a.toNat < 8) (hb : b.toNat < 8) :
    operandsF2R a b s = .ok (⟨a.toNat, ha⟩, ⟨b.toNat, hb⟩) :=
  operandsF2R_ok (Nat.lt_succ_of_le (Nat.add_le_add_right hp 2)) ha hb

theorem operandsF1_absent {a : Byte} {s : State} (hp : 0xFF ≤ s.pc.toNat) :
    operandsF1 a s = .error (.absentOperand 1) := by
  simp [operandsF1, operandPresent_absent (k := 1) (Nat.add_le_add_right hp 1)]

theorem operandsF2I_absentFirst {a b : Byte} {s : State} (hp : 0xFF ≤ s.pc.toNat) :
    operandsF2I a b s = .error (.absentOperand 1) := by
  simp [operandsF2I, operandPresent_absent (k := 1) (Nat.add_le_add_right hp 1)]

theorem operandsF2R_absentFirst {a b : Byte} {s : State} (hp : 0xFF ≤ s.pc.toNat) :
    operandsF2R a b s = .error (.absentOperand 1) := by
  simp [operandsF2R, operandPresent_absent (k := 1) (Nat.add_le_add_right hp 1)]

section SecondAbsent

variable {s : State} (hp : s.pc.toNat = 0xFE)
include hp

theorem operandPresent_first_of_pc : operandPresent 1 s = .ok () := operandPresent_ok (by rw [hp]; decide)

theorem operandPresent_second_of_pc : operandPresent 2 s = .error (.absentOperand 2) :=
  operandPresent_absent (by rw [hp]; decide)

theorem operandsF2I_absentSecond {a b : Byte} : operandsF2I a b s = .error (.absentOperand 2) := by
  simp [operandsF2I, operandPresent_first_of_pc hp, operandPresent_second_of_pc hp]

theorem operandsF2R_absentSecond {a b : Byte} : operandsF2R a b s = .error (.absentOperand 2) := by
  simp [operandsF2R, operandPresent_first_of_pc hp, operandPresent_second_of_pc hp]

end SecondAbsent

theorem operandsF1_invalid {a : Byte} {s : State} (hp : s.pc.toNat + 1 ≤ 0xFF) (ha : 8 ≤ a.toNat) :
    operandsF1 a s = .error (.invalidRegister a) := by
  simp [operandsF1, operandPresent_ok (k := 1) (Nat.lt_succ_of_le hp), regOperand_invalid (Nat.not_lt.mpr ha)]

theorem operandsF2I_invalid {a b : Byte} {s : State} (hp : s.pc.toNat + 2 ≤ 0xFF) (ha : 8 ≤ a.toNat) :
    operandsF2I a b s = .error (.invalidRegister a) := by
  simp [operandsF2I, operandPresent_ok (k := 1) (Nat.lt_of_succ_le (Nat.le_succ_of_le hp)),
    operandPresent_ok (k := 2) (Nat.lt_succ_of_le hp), regOperand_invalid (Nat.not_lt.mpr ha)]

theorem operandsF2R_invalid {a b r : Byte} {s : State} (hp : s.pc.toNat + 2 ≤ 0xFF)
    (hr : [a, b].find? (fun r => 8 ≤ r.toNat) = some r) : operandsF2R a b s = .error (.invalidRegister r) := by
  have h1 : operandPresent 1 s = .ok () := operandPresent_ok (Nat.lt_of_succ_le (Nat.le_succ_of_le hp))
  have h2 : operandPresent 2 s = .ok () := operandPresent_ok (Nat.lt_succ_of_le hp)
  by_cases ha : a.toNat < 8
  · by_cases hb : b.toNat < 8
    · simp [Nat.not_le.mpr ha, Nat.not_le.mpr hb] at hr
    · obtain rfl : b = r := by simpa [Nat.not_le.mpr ha, Nat.not_lt.mp hb] using hr
      simp [operandsF2R, h1, h2, regOperand_ok ha, regOperand_invalid hb]
  · obtain rfl : a = r := by simpa [Nat.not_lt.mp ha] using hr
    simp [operandsF2R, h1, h2, regOperand_invalid ha]

/-! ### An instruction raises its fault -/

theorem exec_absentFirst {i : Instr} {s : State} (hi : 1 ≤ i.operandCount) (hp : 0xFF ≤ s.pc.toNat) :
    exec i s = .next (raise (.absentOperand 1) s) := by
  cases i with
  | hlt | ret => exact absurd hi (by decide)
  | ldi ra imm => simp [exec, execLdi, operandsF2I_absentFirst hp]
  | prn ra => simp [exec, execPrn, operandsF1_absent hp]
  | push ra => simp [exec, execPush, operandsF1_absent hp]
  | pop ra => simp [exec, execPop, operandsF1_absent hp]
  | call ra => simp [exec, execCall, operandsF1_absent hp]
  | add ra rb => simp [exec, execAdd, aluTwoReg, operandsF2R_absentFirst hp]
  | mul ra rb => simp [exec, execMul, aluTwoReg, operandsF2R_absentFirst hp]

theorem exec_absentSecond {i : Instr} {s : State} (hi : i.operandCount = 2) (hp : s.pc.toNat = 0xFE) :
    exec i s = .next (raise (.absentOperand 2) s) := by
  cases i with
  | hlt | prn | push | pop | call | ret => cases hi
  | ldi ra imm => simp [exec, execLdi, operandsF2I_absentSecond hp]
  | add ra rb => simp [exec, execAdd, aluTwoReg, operandsF2R_absentSecond hp]
  | mul ra rb => simp [exec, execMul, aluTwoReg, operandsF2R_absentSecond hp]

/-- Of a single register operand, the first that names no register is that one. -/
theorem eq_of_find?_singleton {a r : Byte} (h : [a].find? (fun r => 8 ≤ r.toNat) = some r) : a = r ∧ 8 ≤ a.toNat := by
  obtain rfl : a = r := (List.mem_singleton.mp (List.mem_of_find?_eq_some h)).symm
  exact ⟨rfl, by simpa using List.find?_some h⟩

theorem exec_invalidRegister {i : Instr} {s : State} {r : Byte} (hp : s.pc.toNat + i.operandCount ≤ 0xFF)
    (hr : i.regOperands.find? (fun r => 8 ≤ r.toNat) = some r) :
    exec i s = .next (raise (.invalidRegister r) s) := by
  cases i with
  | hlt | ret => cases hr
  | ldi ra imm => obtain ⟨rfl, h8⟩ := eq_of_find?_singleton hr; simp [exec, execLdi, operandsF2I_invalid hp h8]
  | prn ra => obtain ⟨rfl, h8⟩ := eq_of_find?_singleton hr; simp [exec, execPrn, operandsF1_invalid hp h8]
  | push ra => obtain ⟨rfl, h8⟩ := eq_of_find?_singleton hr; simp [exec, execPush, operandsF1_invalid hp h8]
  | pop ra => obtain ⟨rfl, h8⟩ := eq_of_find?_singleton hr; simp [exec, execPop, operandsF1_invalid hp h8]
  | call ra => obtain ⟨rfl, h8⟩ := eq_of_find?_singleton hr; simp [exec, execCall, operandsF1_invalid hp h8]
  | add ra rb => simp [exec, execAdd, aluTwoReg, operandsF2R_invalid hp hr]
  | mul ra rb => simp [exec, execMul, aluTwoReg, operandsF2R_invalid hp hr]

/-- The stack pointer that POP increments: the popped byte for `POP R7`, else `x[7]` (R121). -/
theorem poppedPointer_eq {s : State} {ra : Byte} (ha : ra.toNat < 8) :
    (if (⟨ra.toNat, ha⟩ : RegIndex) = sp then s.cell (s.reg sp) else s.reg sp) =
      if ra = 7 then s.cell s.x[7] else s.x[7] := by
  have : (⟨ra.toNat, ha⟩ : RegIndex) = sp ↔ ra = 7 := by
    rw [← BitVec.toNat_inj]; exact Fin.ext_iff
  simp only [this, reg_sp]

theorem decSp_zero {s : State} (h : s.x[7] = 0) : decSp s = .error (.outOfBoundsWrite (-1)) := by
  simp [decSp, reg_sp, h, spBelow]

theorem decSp_pos {s : State} (h : 1 ≤ s.x[7].toNat) : decSp s = .ok (s.setReg sp (s.x[7] - 1)) := by
  obtain ⟨h0, -⟩ | ⟨-, hd, -⟩ := decSp_cases s
  · rw [← reg_sp, h0] at h; exact absurd h (by decide)
  · exact hd

theorem spAbove_top : spAbove 0xFF = .error (.stackPointerRange 0xFF) := rfl

theorem spAbove_ok {v : Byte} (h : v ≠ 0xFF) : spAbove v = .ok (v + 1) := if_neg h

/-- Whatever fault an instruction's checks come to, its meaning is that fault's entry. -/
theorem exec_of_raises {i : Instr} {s : State} {e : FaultEvent} (h : Raises s i e) :
    exec i s = .next (raise e s) := by
  cases h with
  | absentFirst hi hp => exact exec_absentFirst hi hp
  | absentSecond hi hp => exact exec_absentSecond hi hp
  | invalidRegister hp hr => exact exec_invalidRegister hp hr
  | callRange hp ha =>
    simp [exec, execCall, operandsF1_valid hp.le ha, returnAddress, hp]
  | callEmpty hp ha h0 =>
    have hr : ¬ s.pc.toNat + 2 > 0xFF := by omega
    simp [exec, execCall, operandsF1_valid (Nat.le_succ_of_le hp) ha, returnAddress, hr, decSp_zero h0]
  | pushEmpty hp ha h0 =>
    simp [exec, execPush, operandsF1_valid hp ha, decSp_zero h0]
  | popRange hp ha hff =>
    simp only [exec, execPop, operandsF1_valid hp ha, poppedPointer_eq, hff,
      spAbove_top, ok_bind, error_bind, settle_error]
  | retRange hff => simp only [exec, execRet, reg_sp, hff, spAbove_top, error_bind, settle_error]

/-! ### An instruction has its own effect -/

theorem toNat_sub_one {v : Byte} (h : 1 ≤ v.toNat) : (v - 1).toNat = v.toNat - 1 := by
  have := v.isLt
  rw [BitVec.toNat_sub]
  simp
  omega

/-- Where an instruction completes, its meaning answers that state: the converse of `exec_cases`. -/
theorem exec_of_completes {i : Instr} {s t : State} (h : Completes s t i) : exec i s = .next t := by
  cases i with
  | hlt => subst h; rfl
  | ldi ra imm =>
    obtain ⟨hp, ha, rfl⟩ := h
    simp [exec, execLdi, operandsF2I_valid hp ha]
  | prn ra =>
    obtain ⟨hp, ha, rfl⟩ := h
    simp [exec, execPrn, operandsF1_valid hp ha]
  | push ra =>
    obtain ⟨hp, ha, h1, rfl⟩ := h
    simp only [exec, execPush, operandsF1_valid hp ha, decSp_pos h1,
      writeTop_eq, stackAddress_setReg, State.setReg_mem, toNat_sub_one h1, reg_setReg_sp ha, ok_bind, settle_ok]
  | pop ra =>
    obtain ⟨hp, ha, p, hff, rfl, rfl⟩ := h
    simp only [exec, execPop, operandsF1_valid hp ha, poppedPointer_eq,
      spAbove_ok hff, ok_bind, settle_ok]
    rfl
  | call ra =>
    obtain ⟨hp, ha, h1, rfl⟩ := h
    have hr : ¬ s.pc.toNat + 2 > 0xFF := by omega
    simp only [exec, execCall, operandsF1_valid (Nat.le_succ_of_le hp) ha, returnAddress, hr, decSp_pos h1,
      writeTop_eq, stackAddress_setReg, toNat_sub_one h1, ok_bind, if_false, settle_ok, ← reg_setReg_sp ha]
    rfl
  | ret =>
    obtain ⟨hff, rfl⟩ := h
    simp only [exec, execRet, reg_sp, spAbove_ok hff, ok_bind, settle_ok]
  | add ra rb =>
    obtain ⟨hp, ha, hb, rfl⟩ := h
    simp [exec, execAdd, aluTwoReg, operandsF2R_valid hp ha hb, State.reg]
  | mul ra rb =>
    obtain ⟨hp, ha, hb, rfl⟩ := h
    simp [exec, execMul, aluTwoReg, operandsF2R_valid hp ha hb, State.reg]

/-! ### There is no third way -/

theorem operandCount_le_two (i : Instr) : i.operandCount ≤ 2 := by
  cases i <;> simp [Instr.operandCount, Instr.operands]

/-- R96: an operand check fails, or the operand cells exist and every register operand names a register. -/
theorem operands_cases (i : Instr) (s : State) :
    (∃ e, Raises s i e) ∨ (i.operandCount = 0 ∨ s.pc.toNat + i.operandCount ≤ 0xFF) ∧ i.WellFormed := by
  have hle := operandCount_le_two i
  by_cases h1 : 1 ≤ i.operandCount ∧ 0xFF ≤ s.pc.toNat
  · exact .inl ⟨_, .absentFirst h1.1 h1.2⟩
  by_cases h2 : i.operandCount = 2 ∧ s.pc.toNat = 0xFE
  · exact .inl ⟨_, .absentSecond h2.1 h2.2⟩
  have hp : i.operandCount = 0 ∨ s.pc.toNat + i.operandCount ≤ 0xFF := by omega
  cases hr : i.regOperands.find? (fun r => 8 ≤ r.toNat) with
  | none => exact .inr ⟨hp, fun r hmem => by simpa using List.find?_eq_none.mp hr r hmem⟩
  | some r =>
    have : i.operandCount ≠ 0 := by
      cases i with
      | hlt | ret => cases hr
      | _ => nofun
    exact .inl ⟨_, .invalidRegister (hp.resolve_left this) hr⟩

/-- Every instruction at every state raises one fault or has its own effect. -/
theorem raises_or_completes (i : Instr) (s : State) : (∃ e, Raises s i e) ∨ ∃ t, Completes s t i := by
  obtain hf | ⟨hp, hw⟩ := operands_cases i s
  · exact .inl hf
  have reg_valid {r : Byte} (hr : r ∈ i.regOperands) : r.toNat < 8 := hw r hr
  cases i with
  | hlt => exact .inr ⟨_, rfl⟩
  | ldi ra imm =>
    have hp : s.pc.toNat + 2 ≤ 0xFF := hp.resolve_left nofun
    exact .inr ⟨_, by omega, reg_valid (.head _), rfl⟩
  | prn ra =>
    have hp : s.pc.toNat + 1 ≤ 0xFF := hp.resolve_left nofun
    exact .inr ⟨_, by omega, reg_valid (.head _), rfl⟩
  | push ra =>
    have hp : s.pc.toNat + 1 ≤ 0xFF := hp.resolve_left nofun
    by_cases h0 : s.x[7] = 0
    · exact .inl ⟨_, .pushEmpty (by omega) (reg_valid (.head _)) h0⟩
    · exact .inr ⟨_, by omega, reg_valid (.head _), toNat_pos h0, rfl⟩
  | pop ra =>
    have hp : s.pc.toNat + 1 ≤ 0xFF := hp.resolve_left nofun
    by_cases hff : (if ra = 7 then s.cell s.x[7] else s.x[7]) = 0xFF
    · exact .inl ⟨_, .popRange (by omega) (reg_valid (.head _)) hff⟩
    · exact .inr ⟨_, by omega, reg_valid (.head _), _, hff, rfl, rfl⟩
  | call ra =>
    have hp : s.pc.toNat + 1 ≤ 0xFF := hp.resolve_left nofun
    by_cases hr : s.pc.toNat = 0xFE
    · exact .inl ⟨_, .callRange hr (reg_valid (.head _))⟩
    by_cases h0 : s.x[7] = 0
    · exact .inl ⟨_, .callEmpty (by omega) (reg_valid (.head _)) h0⟩
    · exact .inr ⟨_, by omega, reg_valid (.head _), toNat_pos h0, rfl⟩
  | ret =>
    by_cases hff : s.x[7] = 0xFF
    · exact .inl ⟨_, .retRange hff⟩
    · exact .inr ⟨_, hff, rfl⟩
  | add ra rb | mul ra rb =>
    have hp : s.pc.toNat + 2 ≤ 0xFF := hp.resolve_left nofun
    exact .inr ⟨_, by omega, reg_valid (.head _), reg_valid (.tail _ (.head _)), rfl⟩

/-- Every instruction answers a next state (R90, R97, R162). -/
theorem exec_next (i : Instr) (s : State) : ∃ t, exec i s = .next t := by
  obtain ⟨e, he⟩ | ⟨t, hc⟩ := raises_or_completes i s
  · exact ⟨_, exec_of_raises he⟩
  · exact ⟨t, exec_of_completes hc⟩

/-- What an answer of `exec` came from, exactly. -/
theorem raises_or_completes_of_exec {i : Instr} {s t : State} (h : exec i s = .next t) :
    (∃ e, Raises s i e ∧ t = raise e s) ∨ Completes s t i := by
  obtain ⟨e, he⟩ | ⟨u, hc⟩ := raises_or_completes i s
  · exact .inl ⟨e, he, Host.Outcome.next.inj (h.symm.trans (exec_of_raises he))⟩
  · obtain rfl := Host.Outcome.next.inj (h.symm.trans (exec_of_completes hc))
    exact .inr hc

end Sys2Proof.Machine

/-! ## Frames: what an instruction leaves unchanged (10_state.md R21, R29, 20_memory.md R45) -/

namespace Sys2Proof.Machine

/-- Fault entry is R162's, written out. -/
theorem raise_eq_faultedWith (e : FaultEvent) (s : State) : raise e s = s.faultedWith e.cause e.info := rfl

/-! ### What an instruction's own effect leaves unchanged -/

theorem State.x_setReg_ne {j : Nat} {k : RegIndex} (hj : j < 8) (h : j ≠ k) (v : Byte) (s : State) :
    (s.setReg k v).x[j] = s.x[j] :=
  Vector.getElem_set_ne k.isLt hj h.symm

theorem State.x_setReg_same (k : RegIndex) (v : Byte) (s : State) : (s.setReg k v).x[k.val] = v :=
  Vector.getElem_set_self k.isLt

/-- Every register outside R21's column "writes". -/
theorem Completes.x_unwritten {i : Instr} {s t : State} (h : Completes s t i) {j : Nat} (hj : j < 8)
    (hw : j ∉ regsWritten i) : t.x[j] = s.x[j] := by
  have ne_of_written {k : Nat} (hk : k ∈ regsWritten i) : j ≠ k := fun e => hw (e ▸ hk)
  cases i with
  | hlt => subst h; rfl
  | prn ra => obtain ⟨-, -, rfl⟩ := h; rfl
  | ldi ra imm =>
    obtain ⟨-, ha, rfl⟩ := h
    exact s.x_setReg_ne hj (ne_of_written (.head _)) _
  | push ra =>
    obtain ⟨-, -, -, rfl⟩ := h
    exact s.x_setReg_ne hj (ne_of_written (.head _)) _
  | pop ra =>
    obtain ⟨-, ha, p, -, -, rfl⟩ := h
    exact ((s.setReg ⟨ra.toNat, ha⟩ _).x_setReg_ne hj (ne_of_written (.tail _ (.head _))) _).trans
      (s.x_setReg_ne hj (ne_of_written (.head _)) _)
  | call ra =>
    obtain ⟨-, -, -, rfl⟩ := h
    exact s.x_setReg_ne hj (ne_of_written (.head _)) _
  | ret =>
    obtain ⟨-, rfl⟩ := h
    exact s.x_setReg_ne hj (ne_of_written (.head _)) _
  | add ra rb | mul ra rb =>
    obtain ⟨-, ha, -, rfl⟩ := h
    exact s.x_setReg_ne hj (ne_of_written (.head _)) _

/-- Memory: PUSH and CALL put one byte at the decremented stack pointer, the other seven nothing (R45). -/
theorem Completes.mem_cases {i : Instr} {s t : State} (h : Completes s t i) :
    (storesToStack i = false ∧ t.mem = s.mem) ∨
    (storesToStack i = true ∧ 1 ≤ s.x[7].toNat ∧ ∃ v, t.mem = s.mem.put (s.x[7].toNat - 1) v) := by
  cases i with
  | hlt => subst h; exact .inl ⟨rfl, rfl⟩
  | ldi ra imm => obtain ⟨-, -, rfl⟩ := h; exact .inl ⟨rfl, rfl⟩
  | prn ra => obtain ⟨-, -, rfl⟩ := h; exact .inl ⟨rfl, rfl⟩
  | push ra => obtain ⟨-, -, h1, rfl⟩ := h; exact .inr ⟨rfl, h1, _, rfl⟩
  | pop ra => obtain ⟨-, -, -, -, -, rfl⟩ := h; exact .inl ⟨rfl, rfl⟩
  | call ra => obtain ⟨-, -, h1, rfl⟩ := h; exact .inr ⟨rfl, h1, _, rfl⟩
  | ret => obtain ⟨-, rfl⟩ := h; exact .inl ⟨rfl, rfl⟩
  | add ra rb | mul ra rb => obtain ⟨-, -, -, rfl⟩ := h; exact .inl ⟨rfl, rfl⟩

/-- The run status and the fault record, unless it is HLT (R27, R28). -/
theorem Completes.status_fault {i : Instr} {s t : State} (h : Completes s t i) (hi : i ≠ .hlt) :
    t.status = s.status ∧ t.fault = s.fault := by
  cases i with
  | hlt => exact absurd rfl hi
  | ldi ra imm => obtain ⟨-, -, rfl⟩ := h; exact ⟨rfl, rfl⟩
  | prn ra => obtain ⟨-, -, rfl⟩ := h; exact ⟨rfl, rfl⟩
  | push ra => obtain ⟨-, -, -, rfl⟩ := h; exact ⟨rfl, rfl⟩
  | pop ra => obtain ⟨-, -, -, -, -, rfl⟩ := h; exact ⟨rfl, rfl⟩
  | call ra => obtain ⟨-, -, -, rfl⟩ := h; exact ⟨rfl, rfl⟩
  | ret => obtain ⟨-, rfl⟩ := h; exact ⟨rfl, rfl⟩
  | add ra rb | mul ra rb => obtain ⟨-, -, -, rfl⟩ := h; exact ⟨rfl, rfl⟩

/-- The fault record, HLT's included (R28). -/
theorem Completes.fault_eq {i : Instr} {s t : State} (h : Completes s t i) : t.fault = s.fault := by
  by_cases hi : i = .hlt
  · subst hi; subst h; rfl
  · exact (h.status_fault hi).2

/-- The output, unless it is PRN (R29). -/
theorem Completes.out {i : Instr} {s t : State} (h : Completes s t i) (hi : ∀ r, i ≠ .prn r) : t.out = s.out := by
  cases i with
  | hlt => subst h; rfl
  | ldi ra imm => obtain ⟨-, -, rfl⟩ := h; rfl
  | prn ra => exact absurd rfl (hi ra)
  | push ra => obtain ⟨-, -, -, rfl⟩ := h; rfl
  | pop ra => obtain ⟨-, -, -, -, -, rfl⟩ := h; rfl
  | call ra => obtain ⟨-, -, -, rfl⟩ := h; rfl
  | ret => obtain ⟨-, rfl⟩ := h; rfl
  | add ra rb | mul ra rb => obtain ⟨-, -, -, rfl⟩ := h; rfl

/-- CALL's and RET's target is a byte (R26, R133). -/
theorem Completes.pc_transfer {i : Instr} {s t : State} (h : Completes s t i) (htr : transfers i = true) :
    t.pc.toNat ≤ 0xFF := by
  cases i with
  | call ra =>
    obtain ⟨-, -, -, rfl⟩ := h
    exact Nat.le_of_lt_succ ((target_toNat _).trans_lt (BitVec.isLt _))
  | ret =>
    obtain ⟨-, rfl⟩ := h
    exact Nat.le_of_lt_succ ((target_toNat _).trans_lt (BitVec.isLt _))
  | hlt | ldi | prn | push | pop | add | mul => cases htr

/-- An instruction that completes and is no transfer has its last cell inside memory (R26). -/
theorem Completes.width_le {i : Instr} {s t : State} (h : Completes s t i) (hi : i ≠ .hlt)
    (htr : transfers i = false) : s.pc.toNat + i.width ≤ 0x100 := by
  cases i with
  | hlt => exact absurd rfl hi
  | call | ret => cases htr
  | ldi ra imm => exact Nat.add_le_add_right h.1 3
  | prn ra | push ra | pop ra => exact Nat.add_le_add_right h.1 2
  | add ra rb | mul ra rb => exact Nat.add_le_add_right h.1 3

/-- No effect takes `pc` past `0x100` (R26). -/
theorem Completes.pc_le {i : Instr} {s t : State} (h : Completes s t i) (hp : s.pc.toNat ≤ 0x100) :
    t.pc.toNat ≤ 0x100 := by
  by_cases hi : i = .hlt
  · subst hi; subst h; exact hp
  cases htr : transfers i with
  | true => exact Nat.le_succ_of_le (h.pc_transfer htr)
  | false => rw [h.pc_advances hi htr]; exact h.width_le hi htr

/-! ### The frame statements -/

/-- Settles O28: a fault keeps the registers, and an effect writes no other. -/
theorem onlyListedRegistersChange : Obligations.OnlyListedRegistersChange := by
  intro i s t h j hj hw
  obtain ⟨e, rfl, -⟩ | hc := exec_cases h
  · rfl
  · exact hc.x_unwritten hj hw

/-- Settles O29: an effect's one store is at the address that the decrement leaves in the stack pointer; a failing
decrement excludes the effect. -/
theorem onlyTheStackCellChanges : Obligations.OnlyTheStackCellChanges := by
  intro i s t h
  obtain ⟨e, rfl, -⟩ | hc := exec_cases h
  · exact ⟨fun _ _ => rfl, fun _ _ _ _ _ => rfl, fun _ _ _ _ => rfl⟩
  obtain ⟨hst, hm⟩ | ⟨hst, h1, v, hm⟩ := hc.mem_cases
  · simp [hst, hm]
  refine ⟨by simp [hst], fun _ s₁ hs₁ a ha => ?_, fun _ e he => ?_⟩
  · obtain rfl := Except.ok.inj ((decSp_pos h1).symm.trans hs₁)
    rw [stackAddress_setReg, toNat_sub_one h1] at ha
    have hlt : s.x[7].toNat - 1 < Config.memSize := Nat.lt_of_le_of_lt (Nat.sub_le _ _) s.x[7].isLt
    rw [hm, Memory.read_put v s.mem hlt, if_neg ha]
  · cases (decSp_pos h1).symm.trans he

/-- Settles O30, by what fault entry, HLT and every other effect leave. -/
theorem outputAndStatusFrame : Obligations.OutputAndStatusFrame := by
  intro i s t h
  obtain ⟨e, rfl, -⟩ | hc := exec_cases h
  · exact ⟨fun _ => rfl, .inr (.inr ⟨_, _, raise_eq_faultedWith e s⟩)⟩
  refine ⟨hc.out, ?_⟩
  by_cases hi : i = .hlt
  · subst hi; exact .inr (.inl ⟨rfl, hc⟩)
  · exact .inl (hc.status_fault hi)

/-! ### The registers an instruction reads -/

/-- The fault an instruction raises depends on no register outside R21's column "reads". -/
theorem Raises.of_regs_eq {i : Instr} {s : State} {e : FaultEvent} (h : Raises s i e) {y : Vector Byte 8}
    (hy : ∀ j (hj : j < 8), j ∈ regsRead i → y[j] = s.x[j]) : Raises { s with x := y } i e := by
  cases h with
  | absentFirst hi hp => exact .absentFirst hi hp
  | absentSecond hi hp => exact .absentSecond hi hp
  | invalidRegister hp hr => exact .invalidRegister hp hr
  | callRange hp ha => exact .callRange hp ha
  | callEmpty hp ha h0 => exact .callEmpty hp ha ((hy 7 (by decide) (.head _)).trans h0)
  | pushEmpty hp ha h0 => exact .pushEmpty hp ha ((hy 7 (by decide) (.head _)).trans h0)
  | popRange hp ha hff =>
    refine .popRange hp ha ?_
    rw [← hff]
    simp only [hy 7 (by decide) (.head _)]
    rfl
  | retRange hff => exact .retRange ((hy 7 (by decide) (.head _)).trans hff)

/-- With the same values in the registers of R21's column "reads", an instruction completes in the same way: everything
but the registers agrees, and so do the registers it writes. -/
theorem Completes.of_regs_eq {i : Instr} {s t : State} (h : Completes s t i) {y : Vector Byte 8}
    (hy : ∀ j (hj : j < 8), j ∈ regsRead i → y[j] = s.x[j]) :
    ∃ u, Completes { s with x := y } u i ∧ u.pc = t.pc ∧ u.mem = t.mem ∧ u.status = t.status ∧ u.fault = t.fault ∧
      u.out = t.out ∧ ∀ j (hj : j < 8), j ∈ regsWritten i → u.x[j] = t.x[j] := by
  cases i with
  | hlt => subst h; exact ⟨_, rfl, rfl, rfl, rfl, rfl, rfl, nofun⟩
  | ldi ra imm =>
    obtain ⟨hp, ha, rfl⟩ := h
    refine ⟨_, ⟨hp, ha, rfl⟩, rfl, rfl, rfl, rfl, rfl, fun j hj hw => ?_⟩
    obtain rfl := List.mem_singleton.mp hw
    simp
  | prn ra =>
    obtain ⟨hp, ha, rfl⟩ := h
    have hr : y[ra.toNat] = s.x[ra.toNat] := hy _ ha (.head _)
    exact ⟨_, ⟨hp, ha, rfl⟩, rfl, rfl, rfl, rfl, by simp [State.reg, hr], nofun⟩
  | push ra =>
    obtain ⟨hp, ha, h1, rfl⟩ := h
    have h7 : y[7] = s.x[7] := hy 7 (by decide) (.head _)
    have hr : y[ra.toNat] = s.x[ra.toNat] := hy _ ha (.tail _ (.head _))
    refine ⟨_, ⟨hp, ha, h7 ▸ h1, rfl⟩, rfl, by simp [h7, hr], rfl, rfl, rfl, fun j hj hw => ?_⟩
    obtain rfl := List.mem_singleton.mp hw
    simp [sp, h7]
  | pop ra =>
    obtain ⟨hp, ha, p, hff, rfl, rfl⟩ := h
    have h7 : y[7] = s.x[7] := hy 7 (by decide) (.head _)
    refine ⟨_, ⟨hp, ha, _, ?_, rfl, rfl⟩, rfl, rfl, rfl, rfl, rfl, fun j hj hw => ?_⟩
    · simpa [h7, State.cell] using hff
    · have hj' : j = ra.toNat ∨ j = 7 := by simpa [regsWritten] using hw
      obtain rfl | rfl := hj' <;> simp [h7, State.cell, Vector.getElem_set, sp]
  | call ra =>
    obtain ⟨hp, ha, h1, rfl⟩ := h
    have h7 : y[7] = s.x[7] := hy 7 (by decide) (.head _)
    have hr : y[ra.toNat] = s.x[ra.toNat] := hy _ ha (.tail _ (.head _))
    refine ⟨_, ⟨hp, ha, h7 ▸ h1, rfl⟩, by simp [h7, hr], by simp [h7], rfl, rfl, rfl, fun j hj hw => ?_⟩
    obtain rfl := List.mem_singleton.mp hw
    simp [sp, h7]
  | ret =>
    obtain ⟨hff, rfl⟩ := h
    have h7 : y[7] = s.x[7] := hy 7 (by decide) (.head _)
    refine ⟨_, ⟨h7 ▸ hff, rfl⟩, by simp [h7, State.cell], rfl, rfl, rfl, rfl, fun j hj hw => ?_⟩
    obtain rfl := List.mem_singleton.mp hw
    simp [sp, h7]
  | add ra rb | mul ra rb =>
    obtain ⟨hp, ha, hb, rfl⟩ := h
    have hra : y[ra.toNat] = s.x[ra.toNat] := hy _ ha (.head _)
    have hrb : y[rb.toNat] = s.x[rb.toNat] := hy _ hb (.tail _ (.head _))
    refine ⟨_, ⟨hp, ha, hb, rfl⟩, rfl, rfl, rfl, rfl, rfl, fun j hj hw => ?_⟩
    obtain rfl := List.mem_singleton.mp hw
    simp [hra, hrb]

/-- Settles O31: the same fault, or the same effect, comes from registers that agree where the instruction reads. -/
theorem onlyListedRegistersAreRead : Obligations.OnlyListedRegistersAreRead := by
  intro i s t y hs hy h
  obtain ⟨e, he, rfl⟩ | hc := raises_or_completes_of_exec h
  · exact ⟨_, exec_of_raises (he.of_regs_eq hy), rfl, rfl, rfl, rfl, rfl, nofun, fun _ _ _ => rfl⟩
  · obtain ⟨u, hu, hpc, hmem, hst, hf, hout, hw⟩ := hc.of_regs_eq hy
    exact ⟨u, exec_of_completes hu, hpc, hmem, hst, hf, hout, fun j hj hj' _ => hw j hj hj',
      fun j hj hj' => hu.x_unwritten hj hj'⟩

end Sys2Proof.Machine

/-! ## The step: what it fetches, decodes and runs (40_run_loop_hlt.md R90 to R98) -/

namespace Sys2Proof.Machine

/-! ### The cells fetched -/

theorem Memory.read_eq_none {a : Nat} {m : Memory} : m.read a = none ↔ 0x100 ≤ a := by
  constructor
  · intro h
    by_contra hlt
    cases (Memory.read_of_lt (Nat.not_le.mp hlt) m).symm.trans h
  · exact fun h => Memory.read_of_ge h m

theorem Memory.lt_of_read {a : Nat} {m : Memory} {v : Byte} (h : m.read a = some v) : a < 0x100 :=
  Nat.not_le.mp fun hge => by cases (Memory.read_of_ge hge m).symm.trans h

/-- The fetched cells are the three reads in order: only cells at the end are absent (R91, R94). -/
theorem fetchCells_getElem? (s : State) {k : Nat} (hk : k < 3) : (fetchCells s)[k]? = s.mem.read (s.pc.toNat + k) := by
  have absent_above {a : Nat} (h : s.mem.read a = none) {b : Nat} (hb : a ≤ b) : s.mem.read b = none :=
    Memory.read_eq_none.mpr ((Memory.read_eq_none.mp h).trans hb)
  rw [fetchCells_eq]
  cases h0 : s.mem.read s.pc.toNat with
  | none => exact (absent_above h0 (Nat.le_add_right _ k)).symm
  | some op =>
    cases h1 : s.mem.read (s.pc.toNat + 1) with
    | none =>
      obtain _ | k := k
      · exact h0.symm
      · exact (absent_above h1 (by omega)).symm
    | some a =>
      cases h2 : s.mem.read (s.pc.toNat + 2) <;> obtain rfl | rfl | rfl : k = 0 ∨ k = 1 ∨ k = 2 := by omega
      all_goals simp [h0, h1, h2]

theorem encode_length_le (opc : Opc) (i : Instr) : (encode opc i).length ≤ 3 :=
  Nat.succ_le_succ (operandCount_le_two i)

/-- An instruction that decodes at `pc` stands there in memory. -/
theorem codeAt_of_decode {opc : Opc} {s : State} {i : Instr} {rest : List Byte}
    (h : decode opc (fetchCells s) = .ok (i, rest)) : CodeAt opc i s.pc.toNat s.mem := by
  intro k hk
  rw [← fetchCells_getElem? s (hk.trans_le (encode_length_le opc i)),
    decodedCellsAreTheEncoding opc _ i rest h, List.getElem?_append_left hk, List.getElem?_eq_getElem hk]

/-- An instruction that stands at `pc` is what is fetched, with the cells after it. -/
theorem fetchCells_of_codeAt {opc : Opc} {s : State} {i : Instr} (h : CodeAt opc i s.pc.toNat s.mem) :
    ∃ rest, fetchCells s = encode opc i ++ rest := by
  refine ⟨(fetchCells s).drop (encode opc i).length, ?_⟩
  have htake : (fetchCells s).take (encode opc i).length = encode opc i := by
    refine List.ext_getElem? fun k => ?_
    by_cases hk : k < (encode opc i).length
    · rw [List.getElem?_take_of_lt hk, fetchCells_getElem? s (hk.trans_le (encode_length_le opc i)), h k hk,
        List.getElem?_eq_getElem hk]
    · rw [List.getElem?_eq_none (Nat.not_lt.mp hk),
        List.getElem?_eq_none ((List.length_take_le _ _).trans (Nat.not_lt.mp hk))]
  exact (List.take_append_drop _ _).symm.trans (congrArg (· ++ _) htake)

/-! ### The step's answer, by what was decoded -/

/-- Settles O5: the step adds nothing around the instruction's meaning. -/
theorem stepRunsDecodedInstruction : Obligations.StepRunsDecodedInstruction :=
  fun _ _ _ _ hs hd => stepWith_decoded hs hd

/-- Settles O6: the cells fetched are the instruction's own and some rest, and they decode to it (O1). -/
theorem stepRunsInstructionInMemory : Obligations.StepRunsInstructionInMemory := by
  intro opc s i hv hs hc
  obtain ⟨rest, hf⟩ := fetchCells_of_codeAt hc
  exact stepWith_decoded hs (by rw [hf, decodeOfEncodeIsIdentity opc hv i rest])

/-- A running machine that decodes no instruction ends as the loop says (R92, R95, R96). -/
theorem stepWith_rejected {opc : Opc} {s : State} {e : DecodeError} (hs : s.status = .running)
    (hd : decode opc (fetchCells s) = .error e) : stepWith opc s = .next (rejectFetch e s) := by
  simp only [stepWith, hs, hd]

/-- Settles O8: decoding rejects, and the loop ends the run, or an instruction has its meaning. -/
theorem runningStepAnswersNext : Obligations.RunningStepAnswersNext := by
  intro opc s hs
  cases hd : decode opc (fetchCells s) with
  | error e => exact ⟨_, stepWith_rejected hs hd⟩
  | ok r =>
    obtain ⟨t, ht⟩ := exec_next r.1 s
    exact ⟨t, (stepWith_decoded hs hd).trans ht⟩

theorem stepWith_refused (opc : Opc) {s : State} (h : s.status ≠ .running) :
    stepWith opc s = .refused (.noStep s.status) := by
  unfold stepWith
  cases hs : s.status with
  | running => exact absurd hs h
  | idle | halted | faulted => rfl

theorem whenIdle_refused {s : State} (h : s.status ≠ .idle) (s' : State) :
    whenIdle s s' = .refused (.hostRefused s.status) := by
  unfold whenIdle
  cases hs : s.status with
  | idle => exact absurd hs h
  | running | halted | faulted => rfl

/-- Settles O9: the step needs `RUNNING`, Load and Run need `IDLE`, and Reset needs nothing. -/
theorem endStatesAbsorbUntilReset : Obligations.EndStatesAbsorbUntilReset :=
  fun opc _ _ => ⟨stepWith_refused opc, fun h => ⟨whenIdle_refused h _, whenIdle_refused h _⟩, rfl⟩

/-! ### The end of memory -/

/-- A running machine one past the last cell halts (R92). -/
theorem stepWith_at_end (opc : Opc) {s : State} (hs : s.status = .running) (hp : s.pc.toNat = 0x100) :
    stepWith opc s = .next s.halt :=
  stepWith_rejected hs (by rw [fetchCells_end hp]; rfl)

theorem ne_hlt_of_running {i : Instr} {s t : State} (hc : Completes s t i) (ht : t.status = .running) :
    i ≠ .hlt := by
  rintro rfl
  obtain rfl : t = s.halt := hc
  cases ht

/-- Settles O10: an instruction whose last cell is `0xFF` moves `pc` on to `0x100`, where the step halts. -/
theorem endOfMemoryHalts : Obligations.EndOfMemoryHalts := by
  intro opc s hs
  refine ⟨stepWith_at_end opc hs, fun i t htr h ht hw => stepWith_at_end opc ht ?_⟩
  have hc : Completes s t i := exec_completes h (by simp [ht])
  exact (hc.pc_advances (ne_hlt_of_running hc ht) htr).trans hw

/-! ### The byte at `pc` decides -/

theorem stepWith_absent (opc : Opc) {s : State} (hs : s.status = .running) (h : s.mem.read s.pc.toNat = none) :
    stepWith opc s = .next s.halt :=
  stepWith_rejected hs (by rw [fetchCells_eq, h]; rfl)

theorem stepWith_hlt {opc : Opc} {s : State} (hs : s.status = .running)
    (h : s.mem.read s.pc.toNat = some opc.hlt) : stepWith opc s = .next s.halt :=
  (hltHalts opc s).2.2 hs h

theorem stepWith_unassigned {opc : Opc} {s : State} {op : Byte} (hs : s.status = .running)
    (h : s.mem.read s.pc.toNat = some op) (hop : op ∉ opc.toList) :
    stepWith opc s = .next (raise (.unsupportedOpcode op) s) := by
  obtain ⟨rest, hf⟩ := fetchCells_of_read h
  obtain ⟨hne, hd⟩ := (dispatch_none_iff opc op).mpr hop
  exact stepWith_rejected (e := .unsupportedOpcode op) hs (by simp [hf, decode, hne, hd])

open List in
/-- The numbers of a duplicate-free list of bytes are those of the 256 whose byte is in the list. -/
theorem filter_assigned_perm {l : List Byte} (hl : l.Nodup) :
    (range 256).filter (fun n => BitVec.ofNat 8 n ∈ l) ~ l.map BitVec.toNat := by
  refine (perm_ext_iff_of_nodup (nodup_range.filter _) (hl.map BitVec.toNat_injective)).mpr fun n => ?_
  rw [mem_filter, mem_range, decide_eq_true_iff, mem_map]
  constructor
  · exact fun ⟨hn, hm⟩ => ⟨_, hm, Nat.mod_eq_of_lt hn⟩
  · rintro ⟨v, hv, rfl⟩
    exact ⟨v.isLt, by rwa [BitVec.ofNat_toNat, BitVec.setWidth_eq]⟩

/-- A valid assignment leaves 247 of the 256 bytes without an instruction (R80). -/
theorem unassigned_count {opc : Opc} (hv : opc.Valid) :
    ((List.range 256).filter (fun n => BitVec.ofNat 8 n ∉ opc.toList)).length = 247 := by
  have h := List.length_eq_length_filter_add (l := List.range 256) (fun n => BitVec.ofNat 8 n ∈ opc.toList)
  have h9 : opc.toList.length = 9 := rfl
  rw [(filter_assigned_perm hv).length_eq, List.length_map, h9, List.length_range] at h
  simp only [decide_not]
  omega

/-- Settles O11: such a byte has no handler, whatever cells follow it. -/
theorem unassignedOpcodeFaults : Obligations.UnassignedOpcodeFaults :=
  ⟨fun _ _ _ hs h hop => stepWith_unassigned hs h hop, unassigned_count (by decide), by decide⟩

/-- The instruction a handler makes of the two cells after `pc`, an absent one counted as 0. -/
def instrAt (h : Handler) (s : State) : Instr :=
  h.instr ((s.mem.read (s.pc.toNat + 1)).getD 0) ((s.mem.read (s.pc.toNat + 2)).getD 0)

/-- A byte with a handler runs that handler's instruction. Where an operand it uses is absent, the loop's fault is the
one the meaning itself raises (R96, R154). -/
theorem stepWith_handler {opc : Opc} {s : State} {op : Byte} {h : Handler} (hs : s.status = .running)
    (hop : s.mem.read s.pc.toNat = some op) (hne : op ≠ opc.hlt) (hd : dispatch opc op = some h) :
    stepWith opc s = exec (instrAt h s) s := by
  obtain ⟨cells, hf⟩ := fetchCells_of_read hop
  have h1 : cells[0]? = s.mem.read (s.pc.toNat + 1) := by rw [← fetchCells_getElem? s (by decide), hf]; rfl
  have h2 : cells[1]? = s.mem.read (s.pc.toNat + 2) := by rw [← fetchCells_getElem? s (by decide), hf]; rfl
  have hdec : decode opc (fetchCells s) = takeOperands h cells := by rw [hf, decode_of_dispatch hne hd]
  have hpc := Memory.lt_of_read hop
  obtain ⟨i, rest, ht⟩ | ⟨hc, rfl, ht⟩ | ⟨hc, ⟨a, rfl⟩, ht⟩ := takeOperands_cases h cells
  · rw [stepWith_decoded hs (hdec.trans ht), eq_instr_of_takeOperands ht, h1, h2, instrAt]
  · have := Memory.read_eq_none.mp h1.symm
    rw [stepWith_rejected hs (hdec.trans ht)]
    exact (exec_absentFirst ((h.instr_operandCount _ _).symm ▸ hc) (by omega)).symm
  · have := Memory.lt_of_read h1.symm
    have := Memory.read_eq_none.mp h2.symm
    rw [stepWith_rejected hs (hdec.trans ht)]
    exact (exec_absentSecond ((h.instr_operandCount _ _).trans hc) (by omega)).symm

/-- Everything the byte at `pc` can be, with the step it gives. -/
theorem fetch_cases (opc : Opc) {s : State} (hs : s.status = .running) :
    (s.mem.read s.pc.toNat = none ∧ stepWith opc s = .next s.halt) ∨
    (s.mem.read s.pc.toNat = some opc.hlt ∧ stepWith opc s = .next s.halt) ∨
    (∃ op, s.mem.read s.pc.toNat = some op ∧ op ∉ opc.toList ∧
      stepWith opc s = .next (raise (.unsupportedOpcode op) s)) ∨
    ∃ op h, s.mem.read s.pc.toNat = some op ∧ op ≠ opc.hlt ∧ dispatch opc op = some h ∧
      stepWith opc s = exec (instrAt h s) s := by
  cases hop : s.mem.read s.pc.toNat with
  | none => exact .inl ⟨rfl, stepWith_absent opc hs hop⟩
  | some op =>
    by_cases hne : op = opc.hlt
    · subst hne; exact .inr (.inl ⟨rfl, stepWith_hlt hs hop⟩)
    cases hd : dispatch opc op with
    | none =>
      have hn := (dispatch_none_iff opc op).mp ⟨hne, hd⟩
      exact .inr (.inr (.inl ⟨op, rfl, hn, stepWith_unassigned hs hop hn⟩))
    | some h => exact .inr (.inr (.inr ⟨op, h, rfl, hne, hd, stepWith_handler hs hop hne hd⟩))

/-! ### The order of the checks (R161) -/

/-- The outcome at a state is what a verdict says. -/
def Verdict.Describes (v : Verdict) (s : State) (o : Host.Outcome State Fault Refusal) : Prop :=
  match v with
  | .halts => o = .next s.halt
  | .faults cause info => o = .next (s.faultedWith cause info)
  | .executes => ∃ t, o = .next t ∧ t.status = s.status ∧ t.fault = s.fault

theorem Raises.describes {s : State} {i : Instr} {e : FaultEvent} (h : Raises s i e) :
    (Verdict.faults e.cause e.info).Describes s (exec i s) :=
  exec_of_raises h

theorem Completes.describes {s t : State} {i : Instr} (h : Completes s t i) (hi : i ≠ .hlt) :
    Verdict.executes.Describes s (exec i s) :=
  ⟨t, exec_of_completes h, h.status_fault hi⟩

/-- The stack pointer that POP increments is `0xFF`, as R161's items 9 and 10 say it. -/
theorem poppedPointer_eq_top_iff {a : Byte} {s : State} : (if a = 7 then s.cell s.x[7] else s.x[7]) = 0xFF ↔
    (a.toNat ≠ 7 ∧ s.x[7] = 0xFF) ∨ (a.toNat = 7 ∧ s.mem.read s.x[7].toNat = some 0xFF) := by
  have h7 : a = 7 ↔ a.toNat = 7 := BitVec.toNat_inj.symm
  simp only [← h7, read_cell, Option.some.injEq]
  split_ifs with ha <;> tauto

/-- A CALL with its operand cell in memory and not at `0xFE` has a return address that fits a cell (R157). -/
theorem pc_le_of_returnAddress_fits {n : Nat} (h : n + 1 ≤ 0xFF) (hne : n ≠ 0xFE) : n ≤ 0xFD := by omega

/-- Checks 3 to 10 of R161, made in the spec's order over the cells after `pc`, say what the handler's instruction
does. -/
theorem checkHandler_describes (h : Handler) {s : State} (hpc : s.pc.toNat < 0x100) :
    (checkHandler h (s.mem.read (s.pc.toNat + 1)) (s.mem.read (s.pc.toNat + 2)) s).Describes s
      (exec (instrAt h s) s) := by
  simp only [checkHandler, instrAt, Memory.read_eq_none]
  generalize (s.mem.read (s.pc.toNat + 1)).getD 0 = a
  generalize (s.mem.read (s.pc.toNat + 2)).getD 0 = b
  have hcount : (h.instr a b).operandCount = h.operandCount := h.instr_operandCount a b
  have hle : h.operandCount ≤ 2 := hcount ▸ operandCount_le_two _
  by_cases c1 : 1 ≤ h.operandCount ∧ 0x100 ≤ s.pc.toNat + 1
  · rw [if_pos c1]
    exact Raises.describes (.absentFirst (hcount ▸ c1.1) (by omega))
  by_cases c2 : h.operandCount = 2 ∧ 0x100 ≤ s.pc.toNat + 2
  · rw [if_neg c1, if_pos c2]
    exact Raises.describes (.absentSecond (hcount.trans c2.1) (by omega))
  have hp (hc : 1 ≤ h.operandCount) : s.pc.toNat + h.operandCount ≤ 0xFF := by omega
  by_cases c3 : 1 ≤ h.operandCount ∧ 8 ≤ a.toNat
  · rw [if_neg c1, if_neg c2, if_pos c3]
    exact Raises.describes (.invalidRegister (hcount ▸ hp c3.1) (h.find?_regOperands_first c3.1 c3.2))
  have ha (hc : 1 ≤ h.operandCount) : a.toNat < 8 := by omega
  rw [if_neg c1, if_neg c2, if_neg c3]
  split_ifs with c4 c5 c6 c7 c8 c9
  · have hc : h.operandCount = 2 := by obtain ⟨rfl | rfl, -⟩ := c4 <;> rfl
    have h1 : 1 ≤ h.operandCount := by omega
    exact Raises.describes (.invalidRegister (hcount ▸ hp h1) (Handler.find?_regOperands_second c4.1 (ha h1) c4.2))
  · obtain ⟨rfl, hfe⟩ := c5
    exact Raises.describes (.callRange hfe (ha le_rfl))
  · obtain ⟨rfl | rfl, h0⟩ := c6
    · exact Raises.describes (.pushEmpty (Nat.le_of_succ_le_succ (hp le_rfl)) (ha le_rfl) h0)
    · have hfd := pc_le_of_returnAddress_fits (hp le_rfl) fun hfe => c5 ⟨rfl, hfe⟩
      exact Raises.describes (.callEmpty hfd (ha le_rfl) h0)
  · obtain ⟨rfl, hff⟩ := c7
    exact Raises.describes (.retRange hff)
  · obtain ⟨rfl, h7, hff⟩ := c8
    exact Raises.describes (.popRange (Nat.le_of_succ_le_succ (hp le_rfl)) (ha le_rfl)
      (poppedPointer_eq_top_iff.mpr (.inl ⟨h7, hff⟩)))
  · obtain ⟨rfl, h7, hff⟩ := c9
    exact Raises.describes (.popRange (Nat.le_of_succ_le_succ (hp le_rfl)) (ha le_rfl)
      (poppedPointer_eq_top_iff.mpr (.inr ⟨h7, hff⟩)))
  cases h with
  | ldi => exact Completes.describes ⟨Nat.le_of_add_le_add_right (hp (by decide)), ha (by decide), rfl⟩ nofun
  | prn => exact Completes.describes ⟨Nat.le_of_succ_le_succ (hp le_rfl), ha le_rfl, rfl⟩ nofun
  | push =>
    have h1 : 1 ≤ s.x[7].toNat := toNat_pos fun h0 => c6 ⟨.inl rfl, h0⟩
    exact Completes.describes ⟨Nat.le_of_succ_le_succ (hp le_rfl), ha le_rfl, h1, rfl⟩ nofun
  | pop =>
    have hff : (if a = 7 then s.cell s.x[7] else s.x[7]) ≠ 0xFF := fun hff =>
      (poppedPointer_eq_top_iff.mp hff).elim (fun hc => c8 ⟨rfl, hc⟩) (fun hc => c9 ⟨rfl, hc⟩)
    exact Completes.describes ⟨Nat.le_of_succ_le_succ (hp le_rfl), ha le_rfl, _, hff, rfl, rfl⟩ nofun
  | call =>
    have hfd := pc_le_of_returnAddress_fits (hp le_rfl) fun hfe => c5 ⟨rfl, hfe⟩
    have h1 : 1 ≤ s.x[7].toNat := toNat_pos fun h0 => c6 ⟨.inr rfl, h0⟩
    exact Completes.describes ⟨hfd, ha le_rfl, h1, rfl⟩ nofun
  | ret => exact Completes.describes ⟨fun hff => c7 ⟨rfl, hff⟩, rfl⟩ nofun
  | add | mul =>
    have hb : b.toNat < 8 := by simpa using c4
    exact Completes.describes ⟨Nat.le_of_add_le_add_right (hp (by decide)), ha (by decide), hb, rfl⟩ nofun

/-- The verdict of R161's ten checks describes the step. -/
theorem verdict_describes (opc : Opc) {s : State} (hs : s.status = .running) :
    (verdict opc s).Describes s (stepWith opc s) := by
  unfold verdict
  cases hop : s.mem.read s.pc.toNat with
  | none => exact stepWith_absent opc hs hop
  | some op =>
    by_cases hne : op = opc.hlt
    · subst hne
      simp only [if_true]
      exact stepWith_hlt hs hop
    simp only [hne, if_false]
    cases hd : dispatch opc op with
    | none => exact stepWith_unassigned hs hop ((dispatch_none_iff opc op).mp ⟨hne, hd⟩)
    | some h =>
      rw [stepWith_handler hs hop hne hd]
      exact checkHandler_describes h (Memory.lt_of_read hop)

/-- Settles O7, by what the verdict describes. -/
theorem stepFollowsTheCheckOrder : Obligations.StepFollowsTheCheckOrder := by
  intro opc s hs
  have h := verdict_describes opc hs
  refine ⟨fun hv => ?_, fun cause info hv => ?_, fun hv => ?_⟩ <;> rw [hv] at h
  · exact h
  · exact h
  · obtain ⟨t, ht, hst, hf⟩ := h
    exact ⟨t, ht, hst.trans hs, hf⟩

/-! ### Single faults: absent operands, invalid registers, out-of-bounds writes -/

/-- A fault record that an instruction adds is that of the fault it raises (R162). -/
theorem raises_of_fault {i : Instr} {s t : State} {f : FaultRecord} (h : exec i s = .next t) (hs : s.fault = none)
    (hf : t.fault = some f) : ∃ e, Raises s i e ∧ f = ⟨e.cause, s.pc, e.info⟩ := by
  obtain ⟨e, he, rfl⟩ | hc := raises_or_completes_of_exec h
  · exact ⟨e, he, (Option.some.inj hf).symm⟩
  · rw [hc.fault_eq, hs] at hf; cases hf

/-- A fault record that a step adds is that of an unassigned byte, or of the fault the handler's instruction raises. -/
theorem step_fault_cases {opc : Opc} {s t : State} {f : FaultRecord} (hs : s.status = .running) (hn : s.fault = none)
    (h : stepWith opc s = .next t) (hf : t.fault = some f) :
    f.cause = .unsupportedOpcode ∨
    ∃ op hd e, s.mem.read s.pc.toNat = some op ∧ dispatch opc op = some hd ∧ Raises s (instrAt hd s) e ∧
      f = ⟨e.cause, s.pc, e.info⟩ := by
  obtain ⟨-, hst⟩ | ⟨-, hst⟩ | ⟨op, -, -, hst⟩ | ⟨op, hd, hop, -, hdisp, hst⟩ := fetch_cases opc hs <;> rw [hst] at h
  · cases h; rw [State.halt_fault, hn] at hf; cases hf
  · cases h; rw [State.halt_fault, hn] at hf; cases hf
  · cases h; cases hf; exact .inl rfl
  · obtain ⟨e, he, hfe⟩ := raises_of_fault h hn hf
    exact .inr ⟨op, hd, e, hop, hdisp, he, hfe⟩

theorem mem_twoOperands_of_operandCount {opc : Opc} {h : Handler} (hc : h.operandCount = 2) :
    h.opcode opc ∈ [opc.ldi, opc.add, opc.mul] := by
  cases h with
  | ldi | add | mul => simp [Handler.opcode]
  | prn | push | pop | call | ret => cases hc

/-- Settles O12: absent operands are found by `pc` and the operand count alone, operand 1 first. -/
theorem absentUsedOperandFaults : Obligations.AbsentUsedOperandFaults := by
  intro opc s hs
  refine ⟨fun op h hop hne hd => ?_, fun t f hn h hf hcause => ?_⟩
  · have hcount : (instrAt h s).operandCount = h.operandCount := h.instr_operandCount _ _
    rw [stepWith_handler hs hop hne hd]
    exact ⟨fun hc hp => exec_absentFirst (hcount ▸ hc) hp.ge, fun hc hp => exec_absentSecond (hcount.trans hc) hp⟩
  · obtain hc | ⟨op, hd, e, hop, hdisp, he, rfl⟩ := step_fault_cases hs hn h hf
    · cases hcause.symm.trans hc
    have hcount : (instrAt hd s).operandCount = hd.operandCount := hd.instr_operandCount _ _
    generalize instrAt hd s = i at he hcount
    cases he with
    | absentFirst hi hp => exact .inl ⟨rfl, by have := Memory.lt_of_read hop; omega⟩
    | absentSecond hi hp =>
      have hop' := opcode_of_dispatch hdisp
      exact .inr ⟨rfl, hp, op, hp ▸ hop, hop' ▸ mem_twoOperands_of_operandCount (hcount.symm.trans hi)⟩
    | _ => cases hcause

/-- Settles O13: the operand checks find the first byte that names no register, and a well-formed instruction has
none. -/
theorem invalidRegisterFaults : Obligations.InvalidRegisterFaults := by
  intro i s hp
  refine ⟨fun r hr => exec_invalidRegister hp hr, fun t f hw hs h hf hcause => ?_⟩
  obtain ⟨e, he, rfl⟩ := raises_of_fault h hs hf
  cases he with
  | @invalidRegister _ r _ hr =>
    have h8 : 8 ≤ r.toNat := by simpa using List.find?_some hr
    exact absurd (hw _ (List.mem_of_find?_eq_some hr)) (Nat.not_lt.mpr h8)
  | _ => cases hcause

/-- Settles O41: a byte address is always read, and only a decrement from 0 writes out of bounds. -/
theorem outOfBoundsWriteOnlyAtMinusOne : Obligations.OutOfBoundsWriteOnlyAtMinusOne := by
  intro opc s t f hs hn
  refine ⟨by rw [read_cell]; exact Option.some_ne_none _, fun h hf hcause => ?_⟩
  obtain hc | ⟨op, hd, e, hop, hdisp, he, rfl⟩ := step_fault_cases hs hn h hf
  · cases hcause.symm.trans hc
  have hhd : (instrAt hd s).handler = some hd := hd.handler_instr _ _
  rw [hop, opcode_of_dispatch hdisp]
  generalize instrAt hd s = i at he hhd
  cases he with
  | pushEmpty _ _ h0 => cases hhd; exact ⟨rfl, h0, .inl rfl⟩
  | callEmpty _ _ h0 => cases hhd; exact ⟨rfl, h0, .inr rfl⟩
  | _ => cases hcause

end Sys2Proof.Machine

/-! ## The whole machine: `pc`, the invariant, faults and the end of a run (10_state.md R26, R29, 60_exceptions.md R162
to R164, 70_reset_and_hazards.md R180 to R191) -/

namespace Sys2Proof.Machine

/-! ### `pc` -/

/-- No step takes `pc` past `0x100` (R26). -/
theorem stepWith_pc_le {opc : Opc} {s t : State} (h : stepWith opc s = .next t) (hp : s.pc.toNat ≤ 0x100) :
    t.pc.toNat ≤ 0x100 := by
  obtain ⟨-, ⟨e, -, rfl⟩ | ⟨i, rest, -, hx⟩⟩ := stepWith_cases h
  · rwa [rejectFetch_pc]
  obtain ⟨e, rfl, -⟩ | hc := exec_cases hx
  · exact hp
  · exact hc.pc_le hp

/-- Settles O33: no effect passes `0x100`, one that is no transfer moves `pc` by the width, and a transfer's target is a
byte. -/
theorem programCounterNeverWraps : Obligations.ProgramCounterNeverWraps := by
  intro opc s t hs hp h
  refine ⟨stepWith_pc_le h hp, fun i rest hd ht => ?_⟩
  have hc : Completes s t i := exec_completes ((stepWith_decoded hs hd).symm.trans h) (by simp [ht])
  exact ⟨hc.pc_advances (ne_hlt_of_running hc ht), hc.pc_transfer⟩

/-! ### The invariant -/

/-- Settles O36, field by field. -/
theorem resetMeetsInvariant : Obligations.ResetMeetsInvariant where
  memWf := by decide
  pcRange := by decide
  faultIff := by decide
  faultLegal := nofun
  idleReset _ := rfl

theorem Inv.fault_eq_none {s : State} (hi : Inv s) (hs : s.status ≠ .faulted) : s.fault = none :=
  not_not.mp fun hf => hs (hi.faultIff.mpr hf)

/-- Fault entry keeps the invariant where the record it writes is legal. -/
theorem Inv.raiseAt {s : State} (hi : Inv s) {e : FaultEvent} {fpc : PcWord} (hpc : fpc = s.pc)
    (hl : FaultRecord.Legal ⟨e.cause, fpc, e.info⟩) : Inv (raiseAt fpc e s) where
  memWf := hi.memWf
  pcRange := hi.pcRange
  faultIff := ⟨fun _ => nofun, fun _ => rfl⟩
  faultLegal f hf := by cases hf; exact ⟨hpc, hl⟩
  idleReset := nofun

/-- From a running state the invariant is kept by what keeps memory canonical, `pc` in range and the fault record. -/
theorem Inv.of_running {s t : State} (hi : Inv s) (hs : s.status = .running) (hm : t.mem.wf)
    (hp : t.pc.toNat ≤ 0x100) (hst : t.status = .running ∨ t.status = .halted) (hf : t.fault = s.fault) : Inv t := by
  have hn : t.fault = none := hf.trans (hi.fault_eq_none (by simp [hs]))
  obtain ⟨hnf, hni⟩ : t.status ≠ .faulted ∧ t.status ≠ .idle := by obtain h | h := hst <;> simp [h]
  exact ⟨hm, hp, ⟨fun h => absurd h hnf, fun h => absurd hn h⟩, fun f h => (by rw [hn] at h; cases h),
    fun h => absurd h hni⟩

/-- Every fault an instruction raises has a legal `info` (R151). -/
theorem Raises.legal {s : State} {i : Instr} {e : FaultEvent} (h : Raises s i e) :
    FaultRecord.Legal ⟨e.cause, s.pc, e.info⟩ := by
  cases h with
  | absentFirst => exact .inl rfl
  | absentSecond => exact .inr rfl
  | @invalidRegister _ r _ hr =>
    have h8 : 8 ≤ r.toNat := by simpa using List.find?_some hr
    exact ⟨Int.ofNat_le.mpr h8, Int.ofNat_le.mpr (Nat.le_of_lt_succ r.isLt)⟩
  | callRange => exact rfl
  | callEmpty | pushEmpty => exact .inl rfl
  | popRange | retRange => exact rfl

theorem Completes.status_cases {s t : State} {i : Instr} (h : Completes s t i) :
    t.status = s.status ∨ t.status = .halted := by
  by_cases hi : i = .hlt
  · subst hi; subst h; exact .inr rfl
  · exact .inl (h.status_fault hi).1

/-- An instruction's store keeps memory canonical. -/
theorem Completes.mem_wf {s t : State} {i : Instr} (h : Completes s t i) (hm : s.mem.wf) : t.mem.wf := by
  obtain ⟨-, he⟩ | ⟨-, -, v, he⟩ := h.mem_cases <;> rw [he]
  · exact hm
  · exact Memory.put_wf (Nat.lt_of_le_of_lt (Nat.sub_le _ _) s.x[7].isLt) v hm

/-- An instruction's meaning keeps the invariant of a running machine. -/
theorem Inv.exec {i : Instr} {s t : State} (hi : Inv s) (hs : s.status = .running) (h : exec i s = .next t) :
    Inv t := by
  obtain ⟨e, he, rfl⟩ | hc := raises_or_completes_of_exec h
  · exact hi.raiseAt rfl he.legal
  · exact hi.of_running hs (hc.mem_wf hi.memWf) (hc.pc_le hi.pcRange) (hs ▸ hc.status_cases) hc.fault_eq

/-- Settles O34: by the byte at `pc`, the step is the halt, the fault of an unassigned byte, or an instruction. -/
theorem stepKeepsInvariant : Obligations.StepKeepsInvariant := by
  intro opc s t hi h
  obtain ⟨hs, -⟩ := stepWith_cases h
  obtain ⟨-, hst⟩ | ⟨-, hst⟩ | ⟨op, -, -, hst⟩ | ⟨op, hd, -, -, -, hst⟩ := fetch_cases opc hs <;> rw [hst] at h
  · cases h; exact hi.of_running hs hi.memWf hi.pcRange (.inr rfl) rfl
  · cases h; exact hi.of_running hs hi.memWf hi.pcRange (.inr rfl) rfl
  · cases h
    exact hi.raiseAt rfl ⟨Int.natCast_nonneg _, Int.ofNat_le.mpr (Nat.le_of_lt_succ op.isLt)⟩
  · exact hi.exec hs h

/-! ### Host transactions keep the invariant -/

theorem Inv.loadFault {s : State} (hi : Inv s) (hs : s.status = .idle) {e : FaultEvent}
    (hl : FaultRecord.Legal ⟨e.cause, 0, e.info⟩) : Inv (loadFault e s) :=
  hi.raiseAt (congrArg State.pc (hi.idleReset hs)).symm hl

/-- Loading words from an index up to 256 keeps the invariant, on a load fault too. -/
theorem Inv.loadFrom {ws : List Int} {i : Nat} {s : State} (hi : Inv s) (hs : s.status = .idle)
    (hle : i ≤ Config.memSize) : Inv (loadFrom i ws s) := by
  induction ws generalizing i s with
  | nil => exact hi
  | cons w ws ih =>
    obtain ⟨-, -, hlt, hw⟩ | ⟨-, -, hge, hw⟩ | ⟨-, hw⟩ := loadWord_cases i w s
    · rw [loadFrom_cons_ok hw]
      refine ih ?_ hs hlt
      exact ⟨Memory.put_wf hlt _ hi.memWf, hi.pcRange, hi.faultIff, hi.faultLegal, fun h => by rw [hi.idleReset h]⟩
    · rw [loadFrom_cons_error hw]
      obtain rfl : i = Config.memSize := Nat.le_antisymm hle hge
      exact hi.loadFault hs (.inr rfl)
    · rw [loadFrom_cons_error hw]
      exact hi.loadFault hs ⟨Int.natCast_nonneg _, Int.ofNat_le.mpr hle⟩

theorem whenIdle_next {s s' t : State} (h : whenIdle s s' = .next t) : s.status = .idle ∧ t = s' := by
  unfold whenIdle at h
  cases hs : s.status <;> rw [hs] at h <;> cases h
  exact ⟨rfl, rfl⟩

/-- Settles O35, by the three transactions. -/
theorem hostTransactionKeepsInvariant : Obligations.HostTransactionKeepsInvariant := by
  intro op s t hi h
  cases op with
  | reset => cases h; exact resetMeetsInvariant
  | load words =>
    obtain ⟨hs, rfl⟩ := whenIdle_next (s := s) h
    exact hi.loadFrom hs (Nat.zero_le _)
  | run =>
    obtain ⟨hs, rfl⟩ := whenIdle_next (s := s) h
    have hn : s.fault = none := hi.fault_eq_none (by simp [hs])
    exact ⟨hi.memWf, hi.pcRange, by simp [hn], hi.faultLegal, nofun⟩

/-! ### Faults -/

/-- Settles O37: a step that ends in `FAULTED` did so by fault entry, and no effect of an instruction ends there. -/
theorem faultingStepIsPrecise : Obligations.FaultingStepIsPrecise := by
  intro opc s t hs h ht
  obtain ⟨-, hst⟩ | ⟨-, hst⟩ | ⟨op, -, -, hst⟩ | ⟨op, hd, -, -, -, hst⟩ := fetch_cases opc hs <;> rw [hst] at h
  · cases h; cases ht
  · cases h; cases ht
  · cases h; exact ⟨_, _, raise_eq_faultedWith _ s⟩
  · obtain ⟨e, rfl, -⟩ | hc := exec_cases h
    · exact ⟨_, _, raise_eq_faultedWith e s⟩
    · exact absurd ht (hc.status_ne_faulted (by simp [hs]))

/-- Settles O38: under the invariant a record goes with `FAULTED`, from which nothing but Reset exists (O9). -/
theorem faultsCannotNest : Obligations.FaultsCannotNest := by
  intro opc opc' s t hi h
  obtain ⟨hs, -⟩ := stepWith_cases h
  refine ⟨hi.fault_eq_none (by simp [hs]), fun hf => ?_⟩
  have ht : t.status = .faulted := (stepKeepsInvariant opc s t hi h).faultIff.mpr hf
  have hidle : t.status ≠ .idle := by simp [ht]
  rw [← ht]
  exact ⟨stepWith_refused opc' (by simp [ht]), whenIdle_refused hidle _, fun words => whenIdle_refused hidle _⟩

/-! ### Output and the end of a run -/

@[simp] theorem rejectFetch_out (e : DecodeError) (s : State) : (rejectFetch e s).out = s.out := by cases e <;> rfl

/-- Settles O39: only PRN's effect emits, and a decoded PRN stands in memory at `pc`. -/
theorem outputIsAppendOnly : Obligations.OutputIsAppendOnly := by
  intro opc s t h
  obtain ⟨-, ⟨e, -, rfl⟩ | ⟨i, rest, hd, hx⟩⟩ := stepWith_cases h
  · exact .inl (rejectFetch_out e s)
  obtain ⟨e, rfl, -⟩ | hc := exec_cases hx
  · exact .inl rfl
  by_cases hi : ∃ ra, i = .prn ra
  · obtain ⟨ra, rfl⟩ := hi
    have hcode := codeAt_of_decode hd
    obtain ⟨-, ha, rfl⟩ := hc
    exact .inr ⟨ra, ha, hcode 0 Nat.zero_lt_two, hcode 1 Nat.one_lt_two, rfl⟩
  · exact .inl (hc.out fun ra hra => hi ⟨ra, hra⟩)

/-- An instruction other than HLT leaves a running machine running, or faults it. -/
theorem exec_status_of_ne_hlt {i : Instr} {s t : State} (hi : i ≠ .hlt) (h : exec i s = .next t) :
    t.status = s.status ∨ t.status = .faulted := by
  obtain ⟨e, rfl, -⟩ | hc := exec_cases h
  · exact .inr rfl
  · exact .inl (hc.status_fault hi).1

/-- A step halts exactly on an absent byte and on HLT's; any other byte leaves the machine running or faults it. -/
theorem step_halt_cases {opc : Opc} {s t : State} (hs : s.status = .running) (h : stepWith opc s = .next t) :
    (s.mem.read s.pc.toNat = none ∧ t = s.halt) ∨ (s.mem.read s.pc.toNat = some opc.hlt ∧ t = s.halt) ∨
    ∃ op, s.mem.read s.pc.toNat = some op ∧ op ≠ opc.hlt ∧ (t.status = .running ∨ t.status = .faulted) := by
  obtain ⟨hop, hst⟩ | ⟨hop, hst⟩ | ⟨op, hop, hn, hst⟩ | ⟨op, hd, hop, hne, -, hst⟩ := fetch_cases opc hs <;>
    rw [hst] at h
  · exact .inl ⟨hop, (Host.Outcome.next.inj h).symm⟩
  · exact .inr (.inl ⟨hop, (Host.Outcome.next.inj h).symm⟩)
  · cases h
    exact .inr (.inr ⟨op, hop, ((dispatch_none_iff opc op).mpr hn).1, .inr rfl⟩)
  · exact .inr (.inr ⟨op, hop, hne, hs ▸ exec_status_of_ne_hlt (hd.instr_ne_hlt _ _) h⟩)

/-- Settles O40: HLT's byte stands at `pc` at most `0xFF`, and the absent byte at `0x100`. -/
theorem haltsAreToldApartByPc : Obligations.HaltsAreToldApartByPc := by
  intro opc s t hs hp h
  unfold State.haltedAtHlt State.ranOffEnd State.ended
  obtain ⟨hop, rfl⟩ | ⟨hop, rfl⟩ | ⟨op, hop, hne, ht⟩ := step_halt_cases hs h <;> rw [hop]
  · have hpc : s.pc.toNat = 0x100 := Nat.le_antisymm hp (Memory.read_eq_none.mp hop)
    simp [hpc]
  · have hpc := Memory.lt_of_read hop
    simp [Nat.le_of_lt_succ hpc, hpc.ne]
  · have hpc := Memory.lt_of_read hop
    obtain ht | ht := ht <;> simp [ht, hne, hpc.ne]

end Sys2Proof.Machine

/-! ## Each instruction: its cells, its faults and its effect (41_ldi_prn.md, 42_stack.md, 43_call_ret.md, 44_alu.md) -/

namespace Sys2Proof.Machine

/-! ### The clauses that instructions share -/

/-- Operand a of 8 or more is reported whatever operand b is (R96, R155). -/
theorem exec_invalidRegister_first {i : Instr} {a : Byte} {s : State} (hi : i.regOperands.head? = some a)
    (hp : s.pc.toNat + i.operandCount ≤ 0xFF) (h8 : 8 ≤ a.toNat) :
    exec i s = .next (s.faultedWith .invalidRegister a.toNat) := by
  obtain ⟨rs, hrs⟩ := List.head?_eq_some_iff.mp hi
  exact exec_invalidRegister hp (by rw [hrs]; exact List.find?_cons_of_pos (by simpa using h8))

/-- Operand b of 8 or more is reported where operand a names a register (R96, R155). -/
theorem exec_invalidRegister_second {i : Instr} {a b : Byte} {s : State} (hi : i.regOperands = [a, b])
    (hp : s.pc.toNat + i.operandCount ≤ 0xFF) (ha : a.toNat < 8) (h8 : 8 ≤ b.toNat) :
    exec i s = .next (s.faultedWith .invalidRegister b.toNat) :=
  exec_invalidRegister hp (by simp [hi, Nat.not_le.mpr ha, h8])

theorem cell_eq_of_read {a v : Byte} {s : State} (h : s.mem.read a.toNat = some v) : s.cell a = v :=
  Option.some.inj ((read_cell a s).symm.trans h)

/-- PUSH's next state (R120), with every read of its memory. -/
theorem exec_push_ok {s : State} {r : Byte} (hp : s.pc.toNat ≤ 0xFE) (hr : r.toNat < 8) (h1 : 1 ≤ s.x[7].toNat) :
    ∃ t, exec (.push r) s = .next t ∧ t = { s with x := s.x.set 7 (s.x[7] - 1), pc := s.pc + 2, mem := t.mem } ∧
      ∀ a, t.mem.read a =
        if a = s.x[7].toNat - 1 then some (if r = 7 then s.x[7] - 1 else s.x[r.toNat]) else s.mem.read a :=
  ⟨_, exec_of_completes ⟨hp, hr, h1, rfl⟩, rfl,
    fun _ => Memory.read_put _ _ (Nat.lt_of_le_of_lt (Nat.sub_le _ _) s.x[7].isLt)⟩

/-- CALL's next state (R130), with every read of its memory. -/
theorem exec_call_ok {s : State} {r : Byte} (hp : s.pc.toNat ≤ 0xFD) (hr : r.toNat < 8) (h1 : 1 ≤ s.x[7].toNat) :
    ∃ t, exec (.call r) s = .next t ∧ t = { s with x := s.x.set 7 (s.x[7] - 1), pc := t.pc, mem := t.mem } ∧
      t.pc = target (if r = 7 then s.x[7] - 1 else s.x[r.toNat]) ∧
      ∀ a, t.mem.read a =
        if a = s.x[7].toNat - 1 then some (BitVec.ofNat 8 (s.pc.toNat + 2)) else s.mem.read a :=
  ⟨_, exec_of_completes ⟨hp, hr, h1, rfl⟩, rfl, rfl,
    fun _ => Memory.read_put _ _ (Nat.lt_of_le_of_lt (Nat.sub_le _ _) s.x[7].isLt)⟩

/-- POP's next state (R121), in terms of the byte read. -/
theorem exec_pop_ok {s : State} {r v : Byte} (hp : s.pc.toNat ≤ 0xFE) (hr : r.toNat < 8)
    (hv : s.mem.read s.x[7].toNat = some v) (hff : (if r = 7 then v else s.x[7]) ≠ 0xFF) :
    exec (.pop r) s = .next { s with
      x := (s.x.set r.toNat v).set 7 ((if r = 7 then v else s.x[7]) + 1), pc := s.pc + 2 } := by
  obtain rfl := cell_eq_of_read hv
  exact exec_of_completes ⟨hp, hr, _, hff, rfl, rfl⟩

/-- RET's next state (R131), in terms of the byte read. -/
theorem exec_ret_ok {s : State} {v : Byte} (hv : s.mem.read s.x[7].toNat = some v) (hff : s.x[7] ≠ 0xFF) :
    exec .ret s = .next { s with x := s.x.set 7 (s.x[7] + 1), pc := v.setWidth 9 } := by
  obtain rfl := cell_eq_of_read hv
  exact exec_of_completes ⟨hff, rfl⟩

/-! ### LDI and PRN -/

theorem exec_ldi_ok {s : State} {ra imm : Byte} (hp : s.pc.toNat ≤ 0xFD) (ha : ra.toNat < 8) :
    ∃ t, exec (.ldi ra imm) s = .next t ∧ t.x[ra.toNat] = imm ∧ t.out = s.out ∧ t.pc.toNat = s.pc.toNat + 3 :=
  ⟨_, exec_of_completes ⟨hp, ha, rfl⟩, s.x_setReg_same ⟨ra.toNat, ha⟩ imm, rfl,
    advance_pc_toNat (n := 3) (Nat.add_le_add_right hp 3)⟩

theorem exec_prn_ok {s : State} {ra : Byte} (hp : s.pc.toNat ≤ 0xFE) (ha : ra.toNat < 8) :
    ∃ t, exec (.prn ra) s = .next t ∧ t.out = s.out ++ [s.x[ra.toNat]] ∧ t.pc.toNat = s.pc.toNat + 2 :=
  ⟨_, exec_of_completes ⟨hp, ha, rfl⟩, rfl, advance_pc_toNat (n := 2) (Nat.add_le_add_right hp 2)⟩

/-- Settles O15: the operand checks in their order, then the effect; PRN reads back what LDI wrote. -/
theorem ldiLoadsImmediate : Obligations.LdiLoadsImmediate := by
  intro opc s ra imm
  refine ⟨rfl, rfl, fun hp => exec_absentFirst one_le_two hp.ge, fun hp => exec_absentSecond rfl hp,
    fun hp => exec_invalidRegister_first rfl (Nat.add_le_add_right hp 2),
    fun hp ha => exec_of_completes ⟨hp, ha, rfl⟩, fun hp ha => ?_⟩
  obtain ⟨t, ht, htx, hto, htp⟩ := exec_ldi_ok (imm := imm) (Nat.le_trans hp (by decide)) ha
  obtain ⟨u, hu, huo, hup⟩ := exec_prn_ok (s := t) (by omega) ha
  exact ⟨t, u, ht, hu, by rw [huo, hto, htx], by omega⟩

/-- Settles O16: the operand checks, the effect, and the text of one more element. -/
theorem prnAppendsRegister : Obligations.PrnAppendsRegister := by
  intro opc s ra
  refine ⟨rfl, rfl, fun hp => exec_absentFirst le_rfl hp.ge,
    fun hp => exec_invalidRegister_first rfl (Nat.add_le_add_right hp 1),
    fun hp ha => exec_of_completes ⟨hp, ha, rfl⟩, fun v => ?_, rfl, rfl, rfl⟩
  simp [outText, render]

/-! ### PUSH and POP -/

/-- Settles O17: the operand checks, the decrement's check, then the effect. -/
theorem pushStoresBelowStackPointer : Obligations.PushStoresBelowStackPointer := by
  intro opc s ra
  refine ⟨rfl, rfl, fun hp => exec_absentFirst le_rfl hp.ge,
    fun hp => exec_invalidRegister_first rfl (Nat.add_le_add_right hp 1),
    fun hp ha h0 => exec_of_raises (.pushEmpty hp ha h0), fun hp ha h1 => ?_⟩
  obtain ⟨t, ht, heq, hread⟩ := exec_push_ok hp ha h1
  exact ⟨t, ht, heq, (hread _).trans (if_pos rfl), fun a hne => (hread a).trans (if_neg hne)⟩

theorem ne_seven_of_lt {r : Byte} (h : r.toNat < 7) : r ≠ 7 := by
  rintro rfl
  exact absurd h (by decide)

/-- Settles O18: the operand checks, the increment's check, then the effect; `POP R7` increments the popped byte. -/
theorem popLoadsFromStackPointer : Obligations.PopLoadsFromStackPointer := by
  intro opc s ra v hv
  have hcell := cell_eq_of_read hv
  refine ⟨rfl, rfl, fun hp => exec_absentFirst le_rfl hp.ge,
    fun hp => exec_invalidRegister_first rfl (Nat.add_le_add_right hp 1),
    fun hp ha hff => exec_of_raises (.popRange hp (Nat.lt_succ_of_lt ha) ?_),
    fun hp h7 hff => exec_of_raises (.popRange hp (h7 ▸ by decide) ?_), fun hp ha hff => ?_, fun hp h7 hff => ?_⟩
  · rw [if_neg (ne_seven_of_lt ha), hff]
  · rw [if_pos h7, hcell, hff]
  · have hne := ne_seven_of_lt ha
    simpa only [if_neg hne] using exec_pop_ok hp (Nat.lt_succ_of_lt ha) hv (by rwa [if_neg hne])
  · subst h7
    simpa using exec_pop_ok (r := 7) hp (by decide) hv (by simpa using hff)

/-! ### CALL and RET -/

/-- Settles O19: the operand checks, the return address's check, the decrement's check, then the effect. -/
theorem callPushesReturnAddress : Obligations.CallPushesReturnAddress := by
  intro opc s ra
  refine ⟨rfl, rfl, fun hp => exec_absentFirst le_rfl hp.ge,
    fun hp => exec_invalidRegister_first rfl (Nat.add_le_add_right hp 1),
    fun hp ha => exec_of_raises (.callRange hp ha), fun hp ha h0 => exec_of_raises (.callEmpty hp ha h0),
    fun hp ha h1 => ?_⟩
  obtain ⟨t, ht, heq, hpc, hread⟩ := exec_call_ok hp ha h1
  exact ⟨t, ht, heq, by rw [hpc, target_toNat], (hread _).trans (if_pos rfl),
    fun a hne => (hread a).trans (if_neg hne)⟩

/-- Settles O20: the increment's check, then the effect. -/
theorem retPopsProgramCounter : Obligations.RetPopsProgramCounter :=
  fun _ _ _ hv => ⟨rfl, rfl, fun hff => exec_of_raises (.retRange hff), exec_ret_ok hv⟩

/-! ### ADD and MUL -/

/-- What the two arithmetic instructions leave, with `v` the result (R140, R141). -/
theorem aluEffect_eq {s : State} {ra v : Byte} (ha : ra.toNat < 8) :
    ∃ t, t = (s.setReg ⟨ra.toNat, ha⟩ v).advance 3 ∧
      t = { s with x := s.x.set ra.toNat t.x[ra.toNat], pc := s.pc + 3 } ∧ t.x[ra.toNat] = v := by
  have hv : ((s.setReg ⟨ra.toNat, ha⟩ v).advance 3).x[ra.toNat] = v := s.x_setReg_same ⟨ra.toNat, ha⟩ v
  exact ⟨_, rfl, by rw [hv]; rfl, hv⟩

/-- A number modulo 256 is the number exactly when it fits a byte. -/
theorem mod_eq_self_iff_le (n : Nat) : n % 256 = n ↔ n ≤ 255 :=
  (Nat.mod_eq_iff_lt (by decide)).trans Nat.lt_succ_iff

/-- Settles O21: the operand checks, a before b, then the effect, whose result is the low 8 bits of the sum. -/
theorem addKeepsLowEightBits : Obligations.AddKeepsLowEightBits := by
  intro opc s ra rb
  refine ⟨rfl, rfl, fun hp => exec_absentFirst one_le_two hp.ge, fun hp => exec_absentSecond rfl hp,
    fun hp => exec_invalidRegister_first rfl (Nat.add_le_add_right hp 2),
    fun hp => exec_invalidRegister_second rfl (Nat.add_le_add_right hp 2), fun hp ha hb => ?_⟩
  obtain ⟨t, ht, heq, hv⟩ := aluEffect_eq (s := s) (v := aluAdd s.x[ra.toNat] s.x[rb.toNat]) ha
  have hsum : t.x[ra.toNat].toNat = (s.x[ra.toNat].toNat + s.x[rb.toNat].toNat) % 256 := by simp [hv, aluAdd]
  exact ⟨t, exec_of_completes ⟨hp, ha, hb, ht⟩, heq, hsum, by rw [hsum, mod_eq_self_iff_le]⟩

/-- Settles O22: as O21, and the result is the low 8 bits of the product. -/
theorem mulKeepsLowEightBits : Obligations.MulKeepsLowEightBits := by
  intro opc s ra rb
  refine ⟨rfl, rfl, fun hp => exec_absentFirst one_le_two hp.ge, fun hp => exec_absentSecond rfl hp,
    fun hp => exec_invalidRegister_first rfl (Nat.add_le_add_right hp 2),
    fun hp => exec_invalidRegister_second rfl (Nat.add_le_add_right hp 2), fun hp ha hb => ?_⟩
  obtain ⟨t, ht, heq, hv⟩ := aluEffect_eq (s := s) (v := aluMul s.x[ra.toNat] s.x[rb.toNat]) ha
  have hprod : t.x[ra.toNat].toNat = (s.x[ra.toNat].toNat * s.x[rb.toNat].toNat) % 256 := by simp [hv, aluMul]
  exact ⟨t, exec_of_completes ⟨hp, ha, hb, ht⟩, heq, hprod, by rw [hprod, mod_eq_self_iff_le]⟩

end Sys2Proof.Machine

/-! ## Laws of the stack and of calls (42_stack.md R122, 43_call_ret.md R132, 20_memory.md R56) -/

namespace Sys2Proof.Machine

/-! ### Performing a list of instructions -/

theorem execAll_cons {i : Instr} {is : List Instr} {s t : State} (h : exec i s = .next t) :
    execAll (i :: is) s = execAll is t := by
  rw [execAll, h]

theorem execAll_append {is js : List Instr} {s t : State} (h : execAll is s = .next t) :
    execAll (is ++ js) s = execAll js t := by
  induction is generalizing s with
  | nil => cases h; rfl
  | cons i is ih =>
    obtain ⟨u, hu⟩ := exec_next i s
    rw [execAll_cons hu] at h
    rw [List.cons_append, execAll_cons hu, ih h]

/-! ### One push, one pop -/

/-- A decremented stack pointer can be incremented again (R122). -/
theorem sub_one_ne_top {v : Byte} (h : 1 ≤ v.toNat) : v - 1 ≠ 0xFF := fun he => by
  have hn : v.toNat - 1 = 255 := (toNat_sub_one h).symm.trans (congrArg BitVec.toNat he)
  have := v.isLt
  omega

/-- What a PUSH of register `r` did, field by field. -/
structure Pushed (r : Byte) (s t : State) : Prop where
  xEq : t.x = s.x.set 7 (s.x[7] - 1)
  pcEq : t.pc.toNat = s.pc.toNat + 2
  readEq : ∀ a, t.mem.read a =
    if a = s.x[7].toNat - 1 then (if r = 7 then some (s.x[7] - 1) else s.x[r.toNat]?) else s.mem.read a

theorem exec_push_pushed {s : State} {r : Byte} (hp : s.pc.toNat ≤ 0xFE) (hr : r.toNat < 8)
    (h1 : 1 ≤ s.x[7].toNat) : ∃ t, exec (.push r) s = .next t ∧ Pushed r s t := by
  obtain ⟨t, ht, heq, hread⟩ := exec_push_ok hp hr h1
  refine ⟨t, ht, congrArg State.x heq, ?_, fun a => ?_⟩
  · exact (congrArg (fun u => u.pc.toNat) heq).trans
      (advance_pc_toNat (n := 2) (Nat.add_le_add_right hp 2))
  · rw [hread, Vector.getElem?_eq_getElem hr]
    by_cases h7 : r = 7 <;> simp only [h7, if_true, if_false]

section

variable {r : Byte} {s t : State} (h : Pushed r s t)
include h

theorem Pushed.sp_eq : t.x[7] = s.x[7] - 1 := by simp [h.xEq]

theorem Pushed.sp_toNat (h1 : 1 ≤ s.x[7].toNat) : t.x[7].toNat = s.x[7].toNat - 1 := by
  rw [h.sp_eq, toNat_sub_one h1]

theorem Pushed.x_ne {j : Nat} (hj : j < 8) (h7 : j ≠ 7) : t.x[j] = s.x[j] := by
  simp [h.xEq, Vector.getElem_set_ne, h7.symm]

theorem Pushed.read_above {a : Nat} (ha : s.x[7].toNat - 1 ≠ a) : t.mem.read a = s.mem.read a := by
  rw [h.readEq, if_neg ha.symm]

/-- POP of the register that was pushed, in a state with the registers and the stack cell the PUSH left, restores the
registers, `R7` included (R122). -/
theorem Pushed.pop_restores (hr : r.toNat < 8) (h1 : 1 ≤ s.x[7].toNat) {u : State} (hx : u.x = t.x)
    (hm : u.mem.read (s.x[7].toNat - 1) = t.mem.read (s.x[7].toNat - 1)) (hp : u.pc.toNat ≤ 0xFE) :
    ∃ v, exec (.pop r) u = .next v ∧ v.x = s.x ∧ v.mem = u.mem ∧ v.pc.toNat = u.pc.toNat + 2 := by
  have hsp : u.x[7] = s.x[7] - 1 := by rw [← h.sp_eq]; simp only [hx]
  have hread : u.mem.read u.x[7].toNat = some (if r = 7 then s.x[7] - 1 else s.x[r.toNat]) := by
    rw [hsp, toNat_sub_one h1, hm, h.readEq, if_pos rfl, Vector.getElem?_eq_getElem hr]
    by_cases h7 : r = 7 <;> simp only [h7, if_true, if_false]
  have hptr : (if r = 7 then (if r = 7 then s.x[7] - 1 else s.x[r.toNat]) else u.x[7]) = s.x[7] - 1 := by
    by_cases h7 : r = 7 <;> simp only [h7, if_true, if_false, hsp]
  refine ⟨_, exec_pop_ok hp hr hread (hptr.trans_ne (sub_one_ne_top h1)), ?_, rfl,
    advance_pc_toNat (n := 2) (Nat.add_le_add_right hp 2)⟩
  rw [hptr, BitVec.sub_add_cancel]
  refine Vector.ext fun j hj => ?_
  simp only [Vector.getElem_set]
  split_ifs with hj7 hjr hr7
  · subst hj7; rfl
  · subst hjr hr7; exact absurd rfl hj7
  · subst hjr; rfl
  · simp only [hx]; exact h.x_ne hj (Ne.symm hj7)

end

/-- Settles O23: nothing happens between the PUSH and the POP. -/
theorem pushThenPopRestores : Obligations.PushThenPopRestores := by
  intro s r hr h1 hp
  obtain ⟨t, ht, hpush⟩ := exec_push_pushed (Nat.le_trans hp (by decide)) hr h1
  have htp := hpush.pcEq
  obtain ⟨u, hu, hx, -, hup⟩ := hpush.pop_restores hr h1 rfl rfl (by omega)
  exact ⟨t, u, ht, hu, hx, by omega⟩

/-! ### Many pushes, many pops -/

theorem ofNat_toNat_sub_one {v : Byte} (h : 1 ≤ v.toNat) : BitVec.ofNat 8 (v.toNat - 1) = v - 1 := by
  rw [← toNat_sub_one h, BitVec.ofNat_toNat, BitVec.setWidth_eq]

/-- Settles O24, by induction over the registers: the first push writes the highest cell, which the pushes after it, all
below, leave alone. -/
theorem pushesDescendTheStack : Obligations.PushesDescendTheStack := by
  intro rs
  induction rs with
  | nil => exact fun s _ _ _ => ⟨s, rfl, rfl, rfl, fun _ _ => rfl, nofun, fun _ _ => rfl⟩
  | cons r rs ih =>
    intro s hrs hlen hp
    simp only [List.mem_cons, forall_eq_or_imp] at hrs
    simp only [List.length_cons] at hlen hp
    obtain ⟨t, ht, hpush⟩ := exec_push_pushed (s := s) (r := r) (by omega) hrs.1 (by omega)
    have htsp := hpush.sp_toNat (by omega)
    have htpc := hpush.pcEq
    obtain ⟨u, hu, husp, hupc, hux, hucells, huframe⟩ := ih t hrs.2 (by omega) (by omega)
    refine ⟨u, (execAll_cons ht).trans hu, ?_, ?_, fun j hj => ?_, fun k hk => ?_, fun a ha => ?_⟩
    · simp only [List.length_cons]; omega
    · simp only [List.length_cons]; omega
    · exact (hux j hj).trans (hpush.x_ne (by omega) (by omega))
    · cases k with
      | zero =>
        rw [huframe _ (.inr (by omega)), hpush.readEq, if_pos (by omega), List.getElem_cons_zero, Nat.sub_zero,
          ofNat_toNat_sub_one (by omega)]
      | succ k =>
        have hk := Nat.lt_of_succ_lt_succ hk
        have haddr : s.x[7].toNat - 1 - (k + 1) = t.x[7].toNat - 1 - k := by omega
        rw [List.getElem_cons_succ, haddr, hucells k hk]
        split_ifs with h7
        · rfl
        · have hr : rs[k].toNat < 8 := hrs.2 _ (List.getElem_mem hk)
          have hne : rs[k].toNat ≠ 7 := fun he => h7 (BitVec.eq_of_toNat_eq he)
          rw [Vector.getElem?_eq_getElem hr, Vector.getElem?_eq_getElem hr, hpush.x_ne hr hne]
    · simp only [List.length_cons] at ha
      rw [huframe a (by omega), hpush.read_above (by omega)]

theorem toNat_add_one {v : Byte} (h : v.toNat < 0xFF) : (v + 1).toNat = v.toNat + 1 :=
  BitVec.toNat_add_of_lt (Nat.succ_lt_succ h)

/-- A POP that does not name `R7` and does not start at `0xFF` (R122). -/
theorem exec_pop_below {s : State} {r : Byte} (hp : s.pc.toNat ≤ 0xFE) (hr : r.toNat < 7) (h7 : s.x[7].toNat < 0xFF) :
    ∃ t, exec (.pop r) s = .next t ∧ t.x[7].toNat = s.x[7].toNat + 1 ∧ t.pc.toNat = s.pc.toNat + 2 ∧ t.mem = s.mem ∧
      ∀ j (hj : j < 7), j ≠ r.toNat → t.x[j] = s.x[j] := by
  have hptr : (if r = 7 then s.cell s.x[7] else s.x[7]) = s.x[7] := if_neg (ne_seven_of_lt hr)
  have hff : s.x[7] ≠ 0xFF := fun he => absurd (congrArg BitVec.toNat he) h7.ne
  refine ⟨_, exec_pop_ok hp (Nat.lt_succ_of_lt hr) (read_cell _ s) (hptr.trans_ne hff), ?_,
    advance_pc_toNat (n := 2) (Nat.add_le_add_right hp 2), rfl, fun j hj hne => ?_⟩
  · simp only [Vector.getElem_set_self, hptr, toNat_add_one h7]
  · simp [hne.symm, hj.ne']

/-- Settles O25, by induction over the registers. -/
theorem popsAscendTheStack : Obligations.PopsAscendTheStack := by
  intro rs
  induction rs with
  | nil => exact fun s _ _ _ => ⟨s, rfl, rfl, rfl, rfl, fun _ _ _ => rfl⟩
  | cons r rs ih =>
    intro s hrs hlen hp
    simp only [List.mem_cons, forall_eq_or_imp] at hrs
    simp only [List.length_cons] at hlen hp
    obtain ⟨t, ht, htsp, htpc, htm, htx⟩ := exec_pop_below (s := s) (r := r) (by omega) hrs.1 (by omega)
    obtain ⟨u, hu, husp, hupc, hum, hux⟩ := ih t hrs.2 (by omega) (by omega)
    refine ⟨u, (execAll_cons ht).trans hu, by simp only [List.length_cons]; omega,
      by simp only [List.length_cons]; omega, hum.trans htm, fun j hj hmem => ?_⟩
    simp only [List.mem_cons, not_or] at hmem
    have hne : j ≠ r.toNat := fun he => hmem.1 (by rw [he, BitVec.ofNat_toNat, BitVec.setWidth_eq])
    exact (hux j hj hmem.2).trans (htx j hj hne)

/-- Pushes and then the matching pops restore the registers; they also leave memory at and above the stack pointer
alone, which the pops around them need. -/
theorem execAll_pushes_pops {rs : List Byte} {s : State} (hrs : ∀ r ∈ rs, r.toNat < 8)
    (hlen : rs.length ≤ s.x[7].toNat) (hp : s.pc.toNat + 4 * rs.length ≤ 0x100) :
    ∃ t, execAll (rs.map .push ++ rs.reverse.map .pop) s = .next t ∧ t.x = s.x ∧
      t.pc.toNat = s.pc.toNat + 4 * rs.length ∧ ∀ a, s.x[7].toNat ≤ a → t.mem.read a = s.mem.read a := by
  induction rs generalizing s with
  | nil => exact ⟨s, rfl, rfl, rfl, fun _ _ => rfl⟩
  | cons r rs ih =>
    simp only [List.mem_cons, forall_eq_or_imp] at hrs
    simp only [List.length_cons] at hlen hp
    have h1 : 1 ≤ s.x[7].toNat := by omega
    obtain ⟨t, ht, hpush⟩ := exec_push_pushed (s := s) (r := r) (by omega) hrs.1 h1
    have htsp := hpush.sp_toNat h1
    have htpc := hpush.pcEq
    obtain ⟨u, hu, hux, hupc, huframe⟩ := ih (s := t) hrs.2 (by omega) (by omega)
    obtain ⟨v, hv, hvx, hvm, hvpc⟩ := hpush.pop_restores hrs.1 h1 hux (huframe _ htsp.le) (by omega)
    refine ⟨v, ?_, hvx, by simp only [List.length_cons]; omega, fun a ha => ?_⟩
    · simp only [List.map_cons, List.reverse_cons, List.map_append, List.map_nil, List.cons_append,
        ← List.append_assoc]
      rw [execAll_cons ht, execAll_append hu, execAll_cons hv, execAll]
    · rw [hvm, huframe a (by omega), hpush.read_above (by omega)]

/-- Settles O26, for registers below 7 (`R7` is left out as the spec does). -/
theorem pushesThenPopsRestore : Obligations.PushesThenPopsRestore := by
  intro rs s hrs hlen hp
  obtain ⟨t, ht, hx, hpc, -⟩ := execAll_pushes_pops (fun r hr => Nat.lt_succ_of_lt (hrs r hr)) hlen hp
  exact ⟨t, ht, hx, hpc⟩

/-! ### CALL and RET, and a pushed HLT -/

/-- Settles O27: RET reads the cell that CALL wrote, at the stack pointer CALL left. -/
theorem returnResumesAfterCall : Obligations.ReturnResumesAfterCall := by
  intro s r hp hr h1
  obtain ⟨t, ht, heq, -, hread⟩ := exec_call_ok hp hr h1
  have hsp : t.x[7] = s.x[7] - 1 := by rw [heq]; simp
  refine ⟨t, ht, fun u hu hm => ?_⟩
  have hv : u.mem.read u.x[7].toNat = some (BitVec.ofNat 8 (s.pc.toNat + 2)) := by
    rw [hu, hm, hread, if_pos (by rw [hsp, toNat_sub_one h1])]
  refine ⟨_, exec_ret_ok hv (hu.trans hsp |>.trans_ne (sub_one_ne_top h1)), ?_, ?_⟩
  · simp; omega
  · simp [hu, hsp]

/-- Settles O42: the PUSH stores HLT's byte two cells on, where `pc` then stands (O6, O14). -/
theorem pushedHaltIsFetchedNext : Obligations.PushedHaltIsFetchedNext := by
  intro opc s r hr hv hs hcode hsp hx
  have hlt := s.x[7].isLt
  obtain ⟨t, ht, heq, hread⟩ := exec_push_ok (s := s) (r := r) (by omega) (Nat.lt_succ_of_lt hr) (by omega)
  have hstep := (stepRunsInstructionInMemory opc s (.push r) hv hs hcode).trans ht
  have hts : t.status = .running := (congrArg State.status heq).trans hs
  have htp : t.pc.toNat = s.pc.toNat + 2 :=
    (congrArg (fun u => u.pc.toNat) heq).trans (advance_pc_toNat (n := 2) (by omega))
  have hop : t.mem.read t.pc.toNat = some opc.hlt := by
    rw [hread, if_pos (by omega), if_neg (ne_seven_of_lt hr), hx]
  exact ⟨t, t.halt, hstep, stepWith_hlt hts hop, rfl, htp⟩

end Sys2Proof.Machine

/-! ## Memory as data, the host's transactions, and the output's text (20_memory.md R32, 70_reset_and_hazards.md R180 to
R192, 10_state.md R29) -/

namespace Sys2Proof.Machine

/-! ### Canonical memories -/

theorem Memory.get_of_mem {a : Nat} {v : Byte} {m : Memory} (hs : m.Pairwise (fun c d => c.1 < d.1))
    (h : (a, v) ∈ m) : m.get a = v := by
  induction m with
  | nil => cases h
  | cons c m ih =>
    rw [List.pairwise_cons] at hs
    rw [Memory.get]
    obtain rfl | hmem := List.mem_cons.mp h
    · exact if_pos rfl
    · rw [if_neg (hs.1 _ hmem).ne, ih hs.2 hmem]

theorem Memory.mem_of_get_ne {a : Nat} {m : Memory} (h : m.get a ≠ Config.memInit) : (a, m.get a) ∈ m := by
  induction m with
  | nil => exact absurd rfl h
  | cons c m ih =>
    rw [Memory.get] at h ⊢
    split_ifs at h ⊢ with hc
    · subst hc; exact .head _
    · exact .tail _ (ih h)

/-- What a canonical memory lists is what it reads as something else than the initial byte. -/
theorem Memory.mem_iff_read {a : Nat} {v : Byte} {m : Memory} (hm : m.wf) :
    (a, v) ∈ m ↔ v ≠ Config.memInit ∧ m.read a = some v := by
  constructor
  · intro h
    obtain ⟨ha, hv⟩ := hm.2 _ h
    exact ⟨hv, by rw [Memory.read_of_lt ha, Memory.get_of_mem hm.1 h]⟩
  · rintro ⟨hv, h⟩
    obtain rfl : m.get a = v := Option.some.inj ((Memory.read_of_lt (Memory.lt_of_read h) m).symm.trans h)
    exact Memory.mem_of_get_ne hv

/-- Settles O45: canonical memories with the same reads list the same cells, and a rising list is fixed by its cells. -/
theorem canonicalMemoriesAreEqual : Obligations.CanonicalMemoriesAreEqual := by
  intro m m' hm hm' hread
  have : Std.Irrefl fun c d : Host.Cell => c.1 < d.1 := ⟨fun _ => Nat.lt_irrefl _⟩
  have : Std.Antisymm fun c d : Host.Cell => c.1 < d.1 := ⟨fun _ _ h h' => absurd h (Nat.lt_asymm h')⟩
  refine hm.1.eq_of_mem_iff hm'.1 fun c => ?_
  rw [Memory.mem_iff_read hm, Memory.mem_iff_read hm', hread]

/-! ### Load -/

theorem whenIdle_idle {s : State} (hs : s.status = .idle) (s' : State) : whenIdle s s' = .next s' := by
  simp only [whenIdle, hs]

/-- Words in range that fit are written in order, and the load goes on after them (R182). -/
theorem loadFrom_append {ws : List Int} {i : Nat} {s : State} (hw : ∀ w ∈ ws, 0 ≤ w ∧ w ≤ 255)
    (hlen : i + ws.length ≤ Config.memSize) :
    ∃ m, (∀ rest, loadFrom i (ws ++ rest) s = loadFrom (i + ws.length) rest { s with mem := m }) ∧
      (∀ k (hk : k < ws.length), m.read (i + k) = some (BitVec.ofInt 8 ws[k])) ∧
      ∀ a, a < i ∨ i + ws.length ≤ a → m.read a = s.mem.read a := by
  induction ws generalizing i s with
  | nil => exact ⟨s.mem, fun _ => rfl, nofun, fun _ _ => rfl⟩
  | cons w ws ih =>
    rw [List.forall_mem_cons] at hw
    rw [List.length_cons] at hlen
    have hi : i < Config.memSize := by omega
    obtain ⟨-, -, -, hload⟩ | ⟨-, -, hge, -⟩ | ⟨hout, -⟩ := loadWord_cases i w s
    · obtain ⟨m, hm, hcells, hframe⟩ :=
        ih (i := i + 1) (s := { s with mem := s.mem.put i (BitVec.ofInt 8 w) }) hw.2 (by omega)
      have hput (a : Nat) := Memory.read_put (b := a) (BitVec.ofInt 8 w) s.mem hi
      refine ⟨m, fun rest => ?_, fun k hk => ?_, fun a ha => ?_⟩
      · rw [List.cons_append, loadFrom_cons_ok hload, hm, List.length_cons, Nat.add_right_comm, Nat.add_assoc]
      · cases k with
        | zero => exact (hframe i (.inl i.lt_succ_self)).trans ((hput i).trans (if_pos rfl))
        | succ k => exact (congrArg (m.read ·) (by omega)).trans (hcells k (Nat.lt_of_succ_lt_succ hk))
      · rw [List.length_cons] at ha
        rw [hframe a (by omega)]
        exact (hput a).trans (if_neg (by omega))
    · omega
    · omega

/-- A load stops at its first word that cannot be loaded, with the words before it written (R182). -/
theorem loadFrom_stops {ws : List Int} {i : Nat} {s : State} {e : FaultEvent} (hi : i < ws.length)
    (hle : i ≤ Config.memSize) (hw : ∀ j (hj : j < i), 0 ≤ ws[j] ∧ ws[j] ≤ 255)
    (he : ∀ u, loadWord i ws[i] u = .error e) :
    ∃ m, loadFrom 0 ws s = loadFault e { s with mem := m } ∧
      (∀ j (hj : j < i), m.read j = some (BitVec.ofInt 8 ws[j])) ∧ ∀ a, i ≤ a → m.read a = s.mem.read a := by
  have hlen : (ws.take i).length = i := List.length_take_of_le hi.le
  have hrange : ∀ w ∈ ws.take i, 0 ≤ w ∧ w ≤ 255 := by
    intro w hmem
    obtain ⟨j, hj, rfl⟩ := List.mem_take_iff_getElem.mp hmem
    exact hw j (Nat.lt_of_lt_of_le hj (Nat.min_le_left _ _))
  obtain ⟨m, hm, hcells, hframe⟩ := loadFrom_append (i := 0) (s := s) hrange (by omega)
  rw [hlen, Nat.zero_add] at hm hframe
  refine ⟨m, ?_, fun j hj => ?_, fun a ha => hframe a (.inr ha)⟩
  · rw [← List.take_append_drop i ws, hm, List.drop_eq_getElem_cons hi, loadFrom_cons_error (he _)]
  · simpa using hcells j (hlen.symm ▸ hj)

/-- Settles O47: the words before the first that cannot be loaded are written, and that word decides the fault. -/
theorem loadWritesWordsInOrder : Obligations.LoadWritesWordsInOrder := by
  intro s ws hs
  have hnext : hostStep (.load ws) s = .next (loadFrom 0 ws s) := whenIdle_idle hs _
  rw [hnext]
  refine ⟨fun hw hlen => ?_, fun i hi hle hw hout => ?_, fun hlen hw => ?_⟩
  · obtain ⟨m, hm, hcells, hframe⟩ := loadFrom_append (i := 0) (s := s) hw ((Nat.zero_add _).trans_le hlen)
    have hall : loadFrom 0 ws s = { s with mem := m } :=
      (congrArg (loadFrom 0 · s) (List.append_nil ws).symm).trans (hm [])
    simp only [Nat.zero_add] at hcells hframe
    exact ⟨_, rfl, by rw [hall], hall ▸ hcells, fun a ha => hall ▸ hframe a (.inr ha)⟩
  · have he (u : State) : loadWord i ws[i] u = .error (.loadValueRange i) := if_pos hout
    obtain ⟨m, hm, hcells, hframe⟩ := loadFrom_stops (s := s) hi hle hw he
    exact ⟨_, rfl, by rw [hm]; rfl, hm ▸ hcells, hm ▸ hframe⟩
  · have he (u : State) : loadWord 256 ws[256] u = .error (.outOfBoundsWrite 256) := by
      obtain ⟨h0, h1⟩ := hw 256 le_rfl
      obtain ⟨-, -, hlt, -⟩ | ⟨-, -, -, hload⟩ | ⟨hout, -⟩ := loadWord_cases 256 ws[256] u
      · exact absurd hlt (Nat.lt_irrefl _)
      · exact hload
      · omega
    obtain ⟨m, hm, hcells, -⟩ := loadFrom_stops (s := s) hlen le_rfl (fun j hj => hw j hj.le) he
    exact ⟨_, rfl, by rw [hm]; rfl, hm ▸ hcells⟩

theorem ofInt_natCast_toNat (w : Byte) : BitVec.ofInt 8 (w.toNat : Int) = w := by
  rw [BitVec.ofInt_natCast, BitVec.ofNat_toNat, BitVec.setWidth_eq]

/-- Settles O46: Reset's fields as they stand, and Load of bytes by O47. -/
theorem resetAndLoadedState : Obligations.ResetAndLoadedState := by
  have hzero (a : Nat) (ha : a ≤ 0xFF) : State.reset.mem.read a = some 0x00 :=
    Memory.read_of_lt (Nat.lt_succ_of_le ha) _
  refine ⟨rfl, rfl, hzero, rfl, rfl, rfl, fun ws hlen => ?_⟩
  have hrange : ∀ w ∈ ws.map (fun w => (w.toNat : Int)), 0 ≤ w ∧ w ≤ 255 := by
    intro w hw
    obtain ⟨b, -, rfl⟩ := List.mem_map.mp hw
    exact ⟨Int.natCast_nonneg _, Int.ofNat_le.mpr (Nat.le_of_lt_succ b.isLt)⟩
  obtain ⟨t, ht, heq, hcells, hframe⟩ := (loadWritesWordsInOrder State.reset _ rfl).1 hrange (by rwa [List.length_map])
  refine ⟨t, ht, heq, fun a ha => ?_⟩
  rw [List.length_map] at hframe
  by_cases hlt : a < ws.length
  · rw [hcells a (by rwa [List.length_map]), List.getElem_map, ofInt_natCast_toNat, List.getD_eq_getElem _ _ hlt]
  · rw [hframe a (Nat.not_lt.mp hlt), hzero a ha, List.getD_eq_default _ _ (Nat.not_lt.mp hlt)]

/-! ### Run and observation -/

/-- Settles O48: the cell at 0 is then 0x00, which is no opcode byte of the default assignment. -/
theorem runStartsTheLoop : Obligations.RunStartsTheLoop :=
  ⟨fun _ hs => whenIdle_idle hs _, _, rfl, stepWith_unassigned (op := 0) rfl rfl (by decide)⟩

/-- Settles O49, by the run status. -/
theorem hostObservesTheMachine : Obligations.HostObservesTheMachine := by
  intro s
  unfold inspect
  refine ⟨rfl, fun hs => by rw [hs], fun hs => ?_⟩
  cases h : s.status with
  | running => exact absurd h hs
  | idle | halted | faulted => rfl

/-! ### The text of the output -/

theorem toNat_digitChar {d : Nat} (h : d < 10) : (digitChar d).toNat = 48 + d :=
  (Char.toNat_ofNat _).trans (if_pos (.inl (by omega)))

/-- A byte's numeral is its decimal digits, with no leading zero (R29). -/
theorem numeral_digits {n : Nat} (hn : n < 256) :
    ∃ ds : List Nat, numeral n = ds.map digitChar ∧ (∀ d ∈ ds, d < 10) ∧ ds.foldl (fun m d => 10 * m + d) 0 = n ∧
      (ds.head? = some 0 → ds = [0]) := by
  unfold numeral
  split_ifs with h1 h2
  · exact ⟨[n], rfl, by simp; omega, by simp, by simp⟩
  · refine ⟨[n / 10, n % 10], rfl, ?_, ?_, ?_⟩ <;> simp <;> omega
  · refine ⟨[n / 100, n / 10 % 10, n % 10], rfl, ?_, ?_, ?_⟩ <;> simp <;> omega

/-- Settles O50, by the numeral's digits. -/
theorem numeralIsUnsignedDecimal : Obligations.NumeralIsUnsignedDecimal := by
  intro v
  obtain ⟨ds, hds, hlt, hval, hlead⟩ := numeral_digits v.isLt
  rw [hds]
  refine ⟨?_, fun c hc => ?_, fun hhead => ?_, congrArg (· ++ ['\n']) hds⟩
  · rw [List.foldl_map]
    refine (List.foldl_ext _ _ _ fun m d hd => ?_).trans hval
    rw [toNat_digitChar (hlt d hd), Nat.add_sub_cancel_left]
  · obtain ⟨d, hd, rfl⟩ := List.mem_map.mp hc
    rw [toNat_digitChar (hlt d hd)]
    have := hlt d hd
    omega
  · cases ds with
    | nil => cases hhead
    | cons d ds =>
      have hd : digitChar d = '0' := Option.some.inj hhead
      have hd0 : 48 + d = 48 := (toNat_digitChar (hlt d (.head _))).symm.trans (congrArg Char.toNat hd)
      obtain rfl : d = 0 := by omega
      rw [hlead rfl]
      rfl

theorem newline_notMem_numeral (v : Byte) : '\n' ∉ numeral v.toNat := by
  intro h
  obtain ⟨-, hdigits, -, -⟩ := numeralIsUnsignedDecimal v
  exact absurd (hdigits _ h).1 (by decide)

theorem eq_of_numeral_eq {v w : Byte} (h : numeral v.toNat = numeral w.toNat) : v = w := by
  obtain ⟨hv, -⟩ := numeralIsUnsignedDecimal v
  obtain ⟨hw, -⟩ := numeralIsUnsignedDecimal w
  exact BitVec.eq_of_toNat_eq (hv.symm.trans ((congrArg _ h).trans hw))

/-- What stands before the first separator, and after it, is fixed by the whole list. -/
theorem eq_of_append_separator_eq {α : Type} {c : α} {x y u v : List α} (hx : c ∉ x) (hy : c ∉ y)
    (h : x ++ c :: u = y ++ c :: v) : x = y ∧ u = v := by
  induction x generalizing y with
  | nil =>
    cases y with
    | nil => exact ⟨rfl, (List.cons.inj h).2⟩
    | cons b y => exact absurd (List.cons.inj h).1 (List.ne_of_not_mem_cons hy)
  | cons a x ih =>
    cases y with
    | nil => exact absurd (List.cons.inj h).1.symm (List.ne_of_not_mem_cons hx)
    | cons b y =>
      obtain ⟨rfl, htail⟩ := List.cons.inj h
      obtain ⟨rfl, huv⟩ := ih (List.not_mem_of_not_mem_cons hx) (List.not_mem_of_not_mem_cons hy) htail
      exact ⟨rfl, huv⟩

theorem outText_cons (v : Byte) (out : List Byte) : outText (v :: out) = numeral v.toNat ++ '\n' :: outText out := by
  simp [outText, render]

theorem outText_cons_ne_nil (v : Byte) (out : List Byte) : outText (v :: out) ≠ [] := by
  rw [outText_cons]
  exact List.append_ne_nil_of_right_ne_nil _ (List.cons_ne_nil _ _)

/-- Settles O51, by induction: the text up to the first newline is the first element's numeral. -/
theorem outputTextDeterminesOutput : Obligations.OutputTextDeterminesOutput := by
  intro out
  induction out with
  | nil =>
    intro out' h
    cases out' with
    | nil => rfl
    | cons w out' => exact absurd h.symm (outText_cons_ne_nil w out')
  | cons v out ih =>
    intro out' h
    cases out' with
    | nil => exact absurd h (outText_cons_ne_nil v out)
    | cons w out' =>
      rw [outText_cons, outText_cons] at h
      obtain ⟨hnum, hrest⟩ := eq_of_append_separator_eq (newline_notMem_numeral v) (newline_notMem_numeral w) h
      rw [eq_of_numeral_eq hnum, ih out' hrest]

/-! ### Fault codes -/

/-- The causes in the order of R151's table. -/
def faultTable : List FaultCause :=
  [.unsupportedOpcode, .outOfBoundsWrite, .absentOperand, .invalidRegister, .stackPointerRange, .returnAddressRange,
    .loadValueRange]

theorem faultTable_code (c : FaultCause) : faultTable[c.code - 1]? = some c := by cases c <;> rfl

/-- Settles O52: the table, read at a cause's code, gives the cause back. -/
theorem faultCodesAreOneToSeven : Obligations.FaultCodesAreOneToSeven := by
  refine ⟨rfl, fun c c' h => Option.some.inj ?_⟩
  rw [← faultTable_code c, ← faultTable_code c', h]

end Sys2Proof.Machine
